-- ==== Sys2Proof/Word.lean ====
section
/-! DEFINITION. The CORE's value types: Bit, BitSequence, the two enumerations, and the value of a
sequence (00_scope.md R10, R11, R14). -/

namespace Sys2Proof

/-- A Bit, "value in {0,1}" (R10, R15): `false` is 0 and `true` is 1. Every CORE input is a two-valued
signal, so a value outside {0,1} cannot be written (R142; log entry 6). -/
abbrev Bit := Bool

/-- A BitSequence, listed most significant bit first (R10, R22). That it is non-empty is checked where a
request is checked (R64), not in the type. -/
abbrev BitSeq := List Bit

/-- The two results of a comparison; there is no EQUAL (R14, R124). -/
inductive ComparisonResult where
  | less
  | notLess
deriving DecidableEq, Repr

/-- The sign of a SUB result (R14). -/
inductive Sign where
  | positive
  | negative
deriving DecidableEq, Repr

/-- The natural number a sequence represents (R11): its first element, the most significant bit, has
weight 2^(length - 1). -/
def val : BitSeq → Nat
  | [] => 0
  | b :: t => b.toNat * 2 ^ t.length + val t

end Sys2Proof
end

