-- ==== Sys2Proof/Machine/BitLogic.lean ====
section
/-! DEFINITION. BitLogic, the leaf layer: the four gates (40_bitlogic.md R80 to R85). They are internal and
have no operation code (30_encoding.md R52). -/

namespace Sys2Proof.Machine

/-- `not(x)` is 1 - x (R80). -/
def gateNot : Bit → Bit
  | false => true
  | true => false

/-- `and(x, y)` is 1 iff both are 1 (R81). -/
def gateAnd : Bit → Bit → Bit
  | true, true => true
  | true, false => false
  | false, true => false
  | false, false => false

/-- `or(x, y)` is 0 iff both are 0 (R82). -/
def gateOr : Bit → Bit → Bit
  | false, false => false
  | false, true => true
  | true, false => true
  | true, true => true

/-- `xor(x, y)` in the composed, conjunctive-normal form of R83. -/
def gateXor (x y : Bit) : Bit := gateAnd (gateOr x y) (gateOr (gateNot x) (gateNot y))

end Sys2Proof.Machine
end

