-- ==== Sys2Proof/Config.lean ====
section
/-! DEFINITION. The CORE's only implementation parameter, the OPEN operand-length bound WMAX
(00_scope.md R7, R9). The model has no free value: the spec leaves no result undefined. -/

namespace Sys2Proof

/-- What is fixed when the block is built: `wmax` is WMAX, the largest operand length in bits (R7). -/
structure Config where
  wmax : Nat
deriving DecidableEq, Repr

/-- R7: WMAX is an integer with WMAX >= 1. -/
abbrev Config.Valid (c : Config) : Prop := 1 ≤ c.wmax

/-- The instance of 95_test_vectors.md and of opcode_table.json's drawn encodings, WMAX = 8
(DESIGN CHOICE, log entry 2). -/
def Config.vectors : Config := { wmax := 8 }

end Sys2Proof
end

