-- ==== Sys2Proof/Syntax.lean ====
section
/-! DEFINITION. The abstract request (30_encoding.md R50, R52), one constructor per row of
opcode_table.json, and the bus-level request format REQ (R54). -/

namespace Sys2Proof

/-- A request at the abstract level (R50). The two reserved rows of the operation map (R53, R63) have a
constructor each. -/
inductive Instr where
  /-- `ADD(A, B)`, OP = 000 (R110). -/
  | add (a b : BitSeq)
  /-- `SUB(A, B)`, OP = 001 (R130). -/
  | sub (a b : BitSeq)
  /-- `CMP(A, B)`, OP = 010 (R120). -/
  | cmp (a b : BitSeq)
  /-- `FA(x, y, c)`, OP = 100 (R95). -/
  | fa (x y c : Bit)
  /-- `FS(x, y, b)`, OP = 101 (R96). -/
  | fs (x y b : Bit)
  /-- `LT(x, y, l)`, OP = 110 (R97). -/
  | lt (x y l : Bit)
  /-- The reserved code OP = 011 (R63). -/
  | reserved011
  /-- The reserved code OP = 111 (R63). -/
  | reserved111
deriving DecidableEq, Repr

/-- The request format REQ with all of its fields (R54). Lengths are unsigned numbers; the operand buses
are weight-indexed, bus bit `j` being bit `j` of the number (log entry 9). -/
structure Request where
  op   : BitVec 3
  aLen : Nat
  a    : Nat
  bLen : Nat
  b    : Nat
  sin  : Bit
deriving DecidableEq, Repr

end Sys2Proof
end

