-- ==== Sys2Proof/WellFormed.lean ====
section
/-! DEFINITION. Which abstract requests a CORE of a given WMAX can be sent and must answer
(30_encoding.md R64; 10_state.md R22), and the names of the ways a term fails. -/

namespace Sys2Proof

/-- Why a term of `Instr` is no legal sequence request (R64). -/
inductive IllFormed where
  | emptyOperand
  | lengthOutOfRange
deriving DecidableEq, Repr

/-- Why a number is no request word: it does not fit the width of REQ (R66). -/
inductive DecodeError where
  | wordTooWide
deriving DecidableEq, Repr

/-- R64: a legal operand length, `1 <= len <= WMAX`. -/
abbrev LegalLength (c : Config) (s : BitSeq) : Prop := 1 ≤ s.length ∧ s.length ≤ c.wmax

/-- R64: both operands of a sequence request have a legal length. -/
abbrev LegalOperands (c : Config) (a b : BitSeq) : Prop := LegalLength c a ∧ LegalLength c b

/-- The first check of R64 that a pair of operands fails, in the order of R146. -/
def illFormedOperands (c : Config) (a b : BitSeq) : Option IllFormed :=
  if a.length = 0 ∨ b.length = 0 then some .emptyOperand
  else if c.wmax < a.length ∨ c.wmax < b.length then some .lengthOutOfRange
  else none

/-- The first check an instruction fails, if any. The cells and the reserved codes have no operand to check
(R57, R63). -/
def Instr.illFormed (c : Config) : Instr → Option IllFormed
  | .add a b => illFormedOperands c a b
  | .sub a b => illFormedOperands c a b
  | .cmp a b => illFormedOperands c a b
  | .fa _ _ _ => none
  | .fs _ _ _ => none
  | .lt _ _ _ => none
  | .reserved011 => none
  | .reserved111 => none

/-- A term that encodes into a request word of this CORE. -/
abbrev Instr.WellFormed (c : Config) (i : Instr) : Prop := i.illFormed c = none

/-- R53, R63: whether the operation code is one of the two reserved ones. -/
def Instr.isReserved : Instr → Bool
  | .add _ _ => false
  | .sub _ _ => false
  | .cmp _ _ => false
  | .fa _ _ _ => false
  | .fs _ _ _ => false
  | .lt _ _ _ => false
  | .reserved011 => true
  | .reserved111 => true

/-- R63, R64: a legal request, one the CORE answers. -/
abbrev Instr.Legal (c : Config) (i : Instr) : Prop := i.WellFormed c ∧ i.isReserved = false

end Sys2Proof
end

