-- ==== Sys2Proof/Decode.lean ====
section
/-! DEFINITION. The request word REQ and its fields (30_encoding.md R8, R54, R66), operand assembly
(R56, R57), the decoder (R53, R67), the encoder, and the assembler lines of R68. -/

namespace Sys2Proof

/-! ## Field widths and positions -/

/-- `ceil(log2(n))`, by which 00_scope.md R8 derives the length-field widths. -/
def clog2 (n : Nat) : Nat := if n ≤ 1 then 0 else Nat.log2 (n - 1) + 1

/-- R8: `LW`, the width of an operand length field. -/
def Config.lw (c : Config) : Nat := clog2 (c.wmax + 1)

/-- R8: `LRW`, the width of the result length field. -/
def Config.lrw (c : Config) : Nat := clog2 (c.wmax + 2)

/-- R54: `A_LEN` is `REQ[LW+2 : 3]`. -/
def Config.posALen (_ : Config) : Nat := 3
/-- R54: `A` is `REQ[LW+WMAX+2 : LW+3]`. -/
def Config.posA (c : Config) : Nat := c.lw + 3
/-- R54: `B_LEN` is `REQ[2*LW+WMAX+2 : LW+WMAX+3]`. -/
def Config.posBLen (c : Config) : Nat := c.lw + c.wmax + 3
/-- R54: `B` is `REQ[2*LW+2*WMAX+2 : 2*LW+WMAX+3]`. -/
def Config.posB (c : Config) : Nat := 2 * c.lw + c.wmax + 3
/-- R54: `SIN` is `REQ[2*LW+2*WMAX+3]`. -/
def Config.posSin (c : Config) : Nat := 2 * c.lw + 2 * c.wmax + 3
/-- R66: the width of `REQ`, `3 + 2*LW + 2*WMAX + 1` bits. -/
def Config.reqWidth (c : Config) : Nat := 3 + 2 * c.lw + 2 * c.wmax + 1

/-- The `width` bits of `w` from bit `lo` up, bit 0 the least significant (R12). -/
def bits (w lo width : Nat) : Nat := w / 2 ^ lo % 2 ^ width

/-- The fields of a request word (R54). -/
def unpack (c : Config) (w : Nat) : Request where
  op   := BitVec.ofNat 3 (bits w 0 3)
  aLen := bits w c.posALen c.lw
  a    := bits w c.posA c.wmax
  bLen := bits w c.posBLen c.lw
  b    := bits w c.posB c.wmax
  sin  := w.testBit c.posSin

/-- A request written as one number, `SIN | B | B_LEN | A | A_LEN | OP` from the top bit down (R54). -/
def pack (c : Config) (q : Request) : Nat :=
  q.op.toNat + q.aLen * 2 ^ c.posALen + q.a * 2 ^ c.posA + q.bLen * 2 ^ c.posBLen
    + q.b * 2 ^ c.posB + q.sin.toNat * 2 ^ c.posSin

/-! ## Operand assembly -/

/-- R56: the sequence `[v[m-1], ..., v[0]]` a bus value stands for at length `m`. Higher bus bits are not
read. -/
def seqOfBus (v : Nat) : Nat → BitSeq
  | 0 => []
  | m + 1 => v.testBit m :: seqOfBus v m

/-- The bus value whose bit `j` is the bit of weight `2^j` of the sequence and whose higher bits are 0
(R56, R59). -/
def busOfSeq (s : BitSeq) : Nat := s.foldl (fun v b => 2 * v + b.toNat) 0

/-- The sequence on the `A` bus (R56). -/
def Request.aSeq (q : Request) : BitSeq := seqOfBus q.a q.aLen
/-- The sequence on the `B` bus (R56). -/
def Request.bSeq (q : Request) : BitSeq := seqOfBus q.b q.bLen
/-- The bit operand `x = A[0]` of a cell (R57). -/
def Request.x (q : Request) : Bit := q.a.testBit 0
/-- The bit operand `y = B[0]` of a cell (R57). -/
def Request.y (q : Request) : Bit := q.b.testBit 0

/-! ## Decoder -/

/-- R53 and steps 1 and 3 of R67, on `OP[2]`, `OP[1]`, `OP[0]`: select the operation and assemble its
operands. A reserved code decodes to its own constructor, and the legality checks of R67 stand in the
meaning (log entry 7). -/
def decode (q : Request) : Instr :=
  match q.op.getLsbD 2, q.op.getLsbD 1, q.op.getLsbD 0 with
  | false, false, false => .add q.aSeq q.bSeq
  | false, false, true  => .sub q.aSeq q.bSeq
  | false, true,  false => .cmp q.aSeq q.bSeq
  | false, true,  true  => .reserved011
  | true,  false, false => .fa q.x q.y q.sin
  | true,  false, true  => .fs q.x q.y q.sin
  | true,  true,  false => .lt q.x q.y q.sin
  | true,  true,  true  => .reserved111

/-- Decoding a request word: a number that does not fit `REQ` is rejected by name (R66; log entry 11). -/
def decodeWord (c : Config) (w : Nat) : Except DecodeError Instr :=
  if w < 2 ^ c.reqWidth then .ok (decode (unpack c w)) else .error .wordTooWide

/-- The host's question on a word of opcode_table.json: the bits above `nbits` are 0, and the encodings of
the table are drawn at WMAX = 8. -/
def decodeTableWord (nbits w : Nat) : Option Instr :=
  match decodeWord Config.vectors (w % 2 ^ nbits) with
  | .ok i => some i
  | .error _ => none

/-! ## Encoder -/

/-- The request of a sequence operation: literal lengths, ignored inputs 0 (R56, R58, R68). -/
def seqRequest (op : BitVec 3) (a b : BitSeq) : Request where
  op   := op
  aLen := a.length
  a    := busOfSeq a
  bLen := b.length
  b    := busOfSeq b
  sin  := false

/-- The request of a cell operation: both length fields 1, the canonical encoding of 95_test_vectors.md
(R57, R68; log entry 13). -/
def cellRequest (op : BitVec 3) (x y s : Bit) : Request where
  op   := op
  aLen := 1
  a    := x.toNat
  bLen := 1
  b    := y.toNat
  sin  := s

/-- The request of a reserved code: every field but OP is 0 (log entry 13). -/
def reservedRequest (op : BitVec 3) : Request where
  op   := op
  aLen := 0
  a    := 0
  bLen := 0
  b    := 0
  sin  := false

/-- The bus fields of an instruction, by the operation map of R53. -/
def toRequest : Instr → Request
  | .add a b => seqRequest 0b000#3 a b
  | .sub a b => seqRequest 0b001#3 a b
  | .cmp a b => seqRequest 0b010#3 a b
  | .reserved011 => reservedRequest 0b011#3
  | .fa x y c => cellRequest 0b100#3 x y c
  | .fs x y b => cellRequest 0b101#3 x y b
  | .lt x y l => cellRequest 0b110#3 x y l
  | .reserved111 => reservedRequest 0b111#3

/-- The request word of an instruction. -/
def encode (c : Config) (i : Instr) : Nat := pack c (toRequest i)

/-! ## Assembler lines (R68)

A line is a list of characters. The spacing is exactly that of R68's six forms (log entry 12). -/

/-- R68: a binary digit as a Bit. -/
def bitOfChar (ch : Char) : Option Bit :=
  if ch = '0' then some false else if ch = '1' then some true else none

/-- R68: the digit of a Bit. -/
def charOfBit (b : Bit) : Char := if b then '1' else '0'

/-- The bits of a run of binary digits. -/
def bitsOfChars : List Char → Option BitSeq
  | [] => some []
  | ch :: rest =>
    match bitOfChar ch, bitsOfChars rest with
    | some b, some s => some (b :: s)
    | _, _ => none

/-- R68: a sequence operand is a literal matching `[01]+`, most significant bit first. -/
def seqOfLiteral (l : List Char) : Option BitSeq :=
  match bitsOfChars l with
  | some [] => none
  | r => r

/-- R68: a bit operand is `0` or `1`. -/
def bitOfLiteral : List Char → Option Bit
  | [ch] => bitOfChar ch
  | _ => none

/-- The text before the first comma-space pair and the text after it. -/
def splitOperand : List Char → Option (List Char × List Char)
  | ',' :: ' ' :: rest => some ([], rest)
  | ch :: rest => (splitOperand rest).map fun p => (ch :: p.1, p.2)
  | [] => none

/-- Two sequence operands. -/
def parseSeqs (l : List Char) : Option (BitSeq × BitSeq) :=
  match splitOperand l with
  | some (l₁, l₂) =>
    match seqOfLiteral l₁, seqOfLiteral l₂ with
    | some a, some b => some (a, b)
    | _, _ => none
  | none => none

/-- Three bit operands. -/
def parseBits (l : List Char) : Option (Bit × Bit × Bit) :=
  match splitOperand l with
  | some (l₁, rest) =>
    match splitOperand rest with
    | some (l₂, l₃) =>
      match bitOfLiteral l₁, bitOfLiteral l₂, bitOfLiteral l₃ with
      | some x, some y, some s => some (x, y, s)
      | _, _, _ => none
    | none => none
  | none => none

/-- R68, R70: the one request an assembler line stands for. The literal is not normalized. -/
def parseLine : List Char → Option Instr
  | 'a' :: 'd' :: 'd' :: ' ' :: l => (parseSeqs l).map fun p => .add p.1 p.2
  | 's' :: 'u' :: 'b' :: ' ' :: l => (parseSeqs l).map fun p => .sub p.1 p.2
  | 'c' :: 'm' :: 'p' :: ' ' :: l => (parseSeqs l).map fun p => .cmp p.1 p.2
  | 'f' :: 'a' :: ' ' :: l => (parseBits l).map fun p => .fa p.1 p.2.1 p.2.2
  | 'f' :: 's' :: ' ' :: l => (parseBits l).map fun p => .fs p.1 p.2.1 p.2.2
  | 'l' :: 't' :: ' ' :: l => (parseBits l).map fun p => .lt p.1 p.2.1 p.2.2
  | _ => none

/-- The literal of a sequence (R68). -/
def literalOfSeq (s : BitSeq) : List Char := s.map charOfBit

/-- The text of two sequence operands (R68). -/
def printSeqs (a b : BitSeq) : List Char := literalOfSeq a ++ [',', ' '] ++ literalOfSeq b

/-- The text of three bit operands (R68). -/
def printBits (x y s : Bit) : List Char :=
  [charOfBit x, ',', ' ', charOfBit y, ',', ' ', charOfBit s]

/-- R68: the assembler line of a request. A reserved code has none. -/
def printLine : Instr → Option (List Char)
  | .add a b => some (['a', 'd', 'd', ' '] ++ printSeqs a b)
  | .sub a b => some (['s', 'u', 'b', ' '] ++ printSeqs a b)
  | .cmp a b => some (['c', 'm', 'p', ' '] ++ printSeqs a b)
  | .fa x y c => some (['f', 'a', ' '] ++ printBits x y c)
  | .fs x y b => some (['f', 's', ' '] ++ printBits x y b)
  | .lt x y l => some (['l', 't', ' '] ++ printBits x y l)
  | .reserved011 => none
  | .reserved111 => none

end Sys2Proof
end

