-- ==== Sys2Proof/Machine/State.lean ====
section
/-! DEFINITION. What a state holds: the build parameter and the two ports. The CORE itself keeps nothing
between requests (10_state.md R20 to R32), so there is no register, flag, memory, pc or mode here. -/

namespace Sys2Proof.Machine

/-- The response format RSP with all of its fields (30_encoding.md R55). `r` is the weight-indexed result
bus of WMAX + 1 bits and `rLen` the length field of LRW bits. -/
structure Response where
  r    : Nat
  rLen : Nat
  sign : Bit
  less : Bit
  sout : Bit
deriving DecidableEq, Repr

/-- The build parameter (R7), the request port the Caller drives (R54) and the response port (R55). The
response port holds the response to the request on the request port, and `none` while no evaluation of that
request has ended with one (R26, R168; log entries 1 and 4). -/
structure State where
  cfg : Config
  req : Request
  rsp : Option Response
deriving DecidableEq, Repr

/-- No behaviour of the CORE is a fault: "The CORE raises no exception" (60_exceptions.md R140;
93_implementation_defined.md). Nothing raises one, so there is no constructor. -/
inductive Fault
deriving DecidableEq, Repr

/-- The requests that get no meaning (60_exceptions.md R143). Every refusal is safe: nothing can be proved of
the response of a refused request. -/
inductive Refusal where
  /-- An instruction without a meaning in this model: none is left. Safe. -/
  | notModelled (mnemonic : String)
  /-- Raised by the reserved operation codes 011 and 111 (R144). Safe: the outputs are unspecified. -/
  | reservedOp
  /-- Raised by ADD, SUB and CMP on an operand of length 0 (R143). Safe: the outputs are unspecified. -/
  | emptyOperand
  /-- Raised by ADD, SUB and CMP on an operand longer than WMAX (R143). Safe: the outputs are unspecified. -/
  | lengthOutOfRange
deriving DecidableEq, Repr

/-- Every line of the request port at 0 (DESIGN CHOICE, log entry 3). -/
def Request.idle : Request where
  op   := 0b000#3
  aLen := 0
  a    := 0
  bLen := 0
  b    := 0
  sin  := false

/-- The block right after power-up: there is no state to reset (R31, R160). WMAX is that of the test vectors
(log entry 2), the Caller drives nothing yet (log entry 3), and no evaluation has ended (log entry 4). -/
def State.reset : State where
  cfg := Config.vectors
  req := Request.idle
  rsp := none

end Sys2Proof.Machine
end

