-- ==== Sys2Proof/Machine/Flags.lean ====
section
/-! DEFINITION. The CORE has no flags (10_state.md R26). The single-bit response fields are computed here:
the encodings of the enumerations (30_encoding.md R62), the undriven fields (R60), and the placement of a
sequence result (R59). -/

namespace Sys2Proof.Machine

/-- `SIGN = 0` means POSITIVE, `SIGN = 1` means NEGATIVE (R62). -/
def signBit : Sign → Bit
  | .positive => false
  | .negative => true

/-- `LESS = 1` means LESS, `LESS = 0` means NOT_LESS (R62). -/
def lessBit : ComparisonResult → Bit
  | .less => true
  | .notLess => false

/-- Every field driven 0: what an operation does not define (R60). -/
def Response.undriven : Response where
  r    := 0
  rLen := 0
  sign := false
  less := false
  sout := false

/-- A response with a sequence result: `R_LEN = k`, `R[j] = r[j]` below `k` and 0 above (R59), and the
outbound state bit on SOUT (R60). -/
def sequenceResponse (r : BitSeq) (sout : Bit) : Response :=
  { Response.undriven with r := busOfSeq r, rLen := r.length, sout := sout }

/-- A response without a sequence result, with the outbound state bit on SOUT (R59, R60). -/
def stateBitResponse (sout : Bit) : Response := { Response.undriven with sout := sout }

end Sys2Proof.Machine
end

