-- ==== Sys2Proof/Machine/Operands.lean ====
section
/-! DEFINITION. Operands of the sequence operations: the padded read, the common width, normalization
(00_scope.md R10, R12, R16; 10_state.md R23; 20_memory.md R42). -/

namespace Sys2Proof.Machine

/-- `S[i]`, the bit of weight `2^i`, reading 0 at and above the length (R10). This read is the
right-justification of operands and their padding with 0 bits on the left (R42). -/
def bitAt (s : BitSeq) (i : Nat) : Bit :=
  if i < s.length then s.getD (s.length - 1 - i) false else false

/-- The width `W` of a two-operand operation, `max(len(A), len(B))` (R16). -/
def width (a b : BitSeq) : Nat := max a.length b.length

/-- `norm(S)`: leading zero bits removed, at least one bit kept (R23). -/
def normSeq : BitSeq → BitSeq
  | false :: b :: t => normSeq (b :: t)
  | s => s

/-- A normalized sequence: no leading zero unless it is exactly `[0]`, and not empty (R16, R22). -/
abbrev Normalized (s : BitSeq) : Prop := s ≠ [] ∧ normSeq s = s

end Sys2Proof.Machine
end

