-- ==== Sys2Proof/Machine/Ops.lean ====
section
/-! DEFINITION. The named operations over the ports. There is no register and no memory to read or write
(10_state.md R20, R29), and no exception to take or return from (60_exceptions.md R140, R147, R149). -/

namespace Sys2Proof.Machine

/-- The outcome of one evaluation. -/
abbrev Result := Host.Outcome State Fault Refusal

/-- The Caller presents a request: it drives every field of the request port (R6, R21). The response of the
request before it is gone, since SIGN, LESS and SOUT "hold a value only for the request that produced them"
(10_state.md R26), and no evaluation of the new one has ended. -/
def State.present (s : State) (q : Request) : State := { s with req := q, rsp := none }

/-- The state with `r` on the response port, and nothing else changed (R30, R32). -/
def State.withRsp (s : State) (r : Response) : State := { s with rsp := some r }

/-- The CORE drives every response field (R60). -/
def drive (r : Response) (s : State) : Result := .next (s.withRsp r)

/-- `check_lengths` of 30_encoding.md R67, with the reasons of R143 in the order of R146. -/
def checkLengths (c : Config) (a b : BitSeq) : Option Refusal :=
  if a.length = 0 ∨ b.length = 0 then some .emptyOperand
  else if c.wmax < a.length ∨ c.wmax < b.length then some .lengthOutOfRange
  else none

/-- A sequence operation: the length checks first, then the response (R64, R67). -/
def answerSequences (a b : BitSeq) (r : Response) (s : State) : Result :=
  match checkLengths s.cfg a b with
  | some why => .refused why
  | none => drive r s

/-- A response written as one number, `SOUT | LESS | SIGN | R_LEN | R` from the top bit down (R55). -/
def packResponse (c : Config) (r : Response) : Nat :=
  r.r + r.rLen * 2 ^ (c.wmax + 1) + r.sign.toNat * 2 ^ (c.wmax + c.lrw + 1)
    + r.less.toNat * 2 ^ (c.wmax + c.lrw + 2) + r.sout.toNat * 2 ^ (c.wmax + c.lrw + 3)

end Sys2Proof.Machine
end

