-- ==== Sys2Proof/Machine/Cells.lean ====
section
/-! DEFINITION. BitArithmetic: the five single-bit cells (41_cells.md R90 to R94), the ripple chain that
threads a state bit through a row of cells (10_state.md R24, R25), and the operations FA, FS and LT, each
one cell on its own (R95 to R97). -/

namespace Sys2Proof.Machine

/-- `sumBit(x,y,c) = xor(xor(x,y), c)` (R90). With `carryOut` it is the sum x + y + c (R98, identity 1), and it
is symmetric in `x` and `y` (R98, identity 4). -/
def sumBit (x y c : Bit) : Bit := gateXor (gateXor x y) c

/-- `carryOut(x,y,c) = or(and(x,y), and(c, xor(x,y)))` (R91; R98, identities 1 and 4). -/
def carryOut (x y c : Bit) : Bit := gateOr (gateAnd x y) (gateAnd c (gateXor x y))

/-- `diffBit(x,y,b) = xor(xor(x,y), b)` (R92). With `borrowOut` it is the difference x - y - b (R98, identity
2). -/
def diffBit (x y b : Bit) : Bit := gateXor (gateXor x y) b

/-- `borrowOut(x,y,b) = or(or(and(not(x),b), and(not(x),y)), and(y,b))` (R93; R98, identity 2). -/
def borrowOut (x y b : Bit) : Bit :=
  gateOr (gateOr (gateAnd (gateNot x) b) (gateAnd (gateNot x) y)) (gateAnd y b)

/-- `lessSoFar(x,y,l) = or(or(and(y,l), and(not(x),y)), and(not(x),l))` (R94). It is the
function `borrowOut` (R98, identity 3). -/
def lessSoFar (x y l : Bit) : Bit :=
  gateOr (gateOr (gateAnd y l) (gateAnd (gateNot x) y)) (gateAnd (gateNot x) l)

/-- The state bit of a chain before position `i`: seeded 0, updated once per position, least significant
position first (R24). With `carryOut` it is c(i), with `borrowOut` b(i), with `lessSoFar` l(i). -/
def chainState (next : Bit → Bit → Bit → Bit) (a b : BitSeq) : Nat → Bit
  | 0 => false
  | i + 1 => next (bitAt a i) (bitAt b i) (chainState next a b i)

/-- The result bits of positions 0 to `n - 1` of a chain, most significant first. -/
def chainBits (out next : Bit → Bit → Bit → Bit) (a b : BitSeq) : Nat → BitSeq
  | 0 => []
  | i + 1 => out (bitAt a i) (bitAt b i) (chainState next a b i) :: chainBits out next a b i

/-- FA: the sum bit on R[0], the carry on SOUT (R95). -/
def execFa (x y c : Bit) (s : State) : Result :=
  drive (sequenceResponse [sumBit x y c] (carryOut x y c)) s

/-- FS: the difference bit on R[0], the borrow on SOUT (R96). -/
def execFs (x y b : Bit) (s : State) : Result :=
  drive (sequenceResponse [diffBit x y b] (borrowOut x y b)) s

/-- LT: the less-so-far bit on SOUT, no sequence result, LESS not driven (R97). -/
def execLt (x y l : Bit) (s : State) : Result :=
  drive (stateBitResponse (lessSoFar x y l)) s

end Sys2Proof.Machine
end

