-- ==== Sys2Proof/Machine/Compare.lean ====
section
/-! DEFINITION. CMP, the magnitude comparator (43_compare.md R120 to R125). The equal-length fold runs from
the least significant position up (R121; 90_conflicts.md C1). -/

namespace Sys2Proof.Machine

/-- The comparison (R120): by length when the lengths differ, reading no operand bit (R122), else by the fold
of `lessSoFar`. -/
def compareSeqs (a b : BitSeq) : ComparisonResult :=
  if a.length ≠ b.length then
    if a.length < b.length then .less else .notLess
  else
    if chainState lessSoFar a b a.length then .less else .notLess

/-- CMP (R120): the result on LESS, every other field 0. -/
def execCmp (a b : BitSeq) (s : State) : Result :=
  answerSequences a b { Response.undriven with less := lessBit (compareSeqs a b) } s

end Sys2Proof.Machine
end

