-- ==== Sys2Proof/Machine/Reserved.lean ====
section
/-! DEFINITION. The two reserved operation codes (30_encoding.md R63; 60_exceptions.md R144): the outputs
are unspecified, "and a model must not give them a value". -/

namespace Sys2Proof.Machine

/-- OP = 011 selects no operation (R144). -/
def execReserved011 (_ : State) : Result := .refused .reservedOp

/-- OP = 111 selects no operation (R144). -/
def execReserved111 (_ : State) : Result := .refused .reservedOp

end Sys2Proof.Machine
end

