-- ==== Sys2Proof/Machine/RippleAdd.lean ====
section
/-! DEFINITION. ADD, the ripple-carry adder chain (42_ripple_add.md R110 to R116). -/

namespace Sys2Proof.Machine

/-- The final carry `c(W)` (R110). -/
def finalCarry (a b : BitSeq) : Bit := chainState carryOut a b (width a b)

/-- The sum sequence: the `W` sum bits, with a 1 in front when the final carry is 1, and no normalization
(R110, R112). -/
def addSeq (a b : BitSeq) : BitSeq :=
  let raw := chainBits sumBit carryOut a b (width a b)
  if finalCarry a b then true :: raw else raw

/-- ADD (R110): the sum on R, the final carry on SOUT. -/
def execAdd (a b : BitSeq) (s : State) : Result :=
  answerSequences a b (sequenceResponse (addSeq a b) (finalCarry a b)) s

end Sys2Proof.Machine
end

