-- ==== Sys2Proof/Machine/RippleSub.lean ====
section
/-! DEFINITION. SUB, sign-magnitude subtraction: compare, swap, ripple-borrow chain, normalize
(44_ripple_sub.md R130 to R137). -/

namespace Sys2Proof.Machine

/-- The minuend `M`, the subtrahend `N` and the sign, chosen by CMP (R130, R131). -/
def orderOperands (a b : BitSeq) : BitSeq × BitSeq × Sign :=
  match compareSeqs a b with
  | .notLess => (a, b, .positive)
  | .less => (b, a, .negative)

/-- The `W` difference bits of `M - N`; the final borrow is not prepended (R130, R132). -/
def rawDifference (m n : BitSeq) : BitSeq := chainBits diffBit borrowOut m n (width m n)

/-- The final borrow `b(W)` of `M - N` (R130). -/
def finalBorrow (m n : BitSeq) : Bit := chainState borrowOut m n (width m n)

/-- The response of SUB: normalized magnitude, sign, final borrow (R130, R133). -/
def subResponse (a b : BitSeq) : Response :=
  match orderOperands a b with
  | (m, n, sign) =>
    { sequenceResponse (normSeq (rawDifference m n)) (finalBorrow m n) with sign := signBit sign }

/-- SUB (R130). -/
def execSub (a b : BitSeq) (s : State) : Result := answerSequences a b (subResponse a b) s

end Sys2Proof.Machine
end

