-- ==== Sys2Proof/Machine/Dispatch.lean ====
section
/-! DEFINITION. One arm per constructor of Instr, each one call of its meaning (30_encoding.md R67 step 4). -/

namespace Sys2Proof.Machine

def exec (i : Instr) (s : State) : Host.Outcome State Fault Refusal :=
  match i with
  | .add a b => Sys2Proof.Machine.execAdd a b s
  | .sub a b => Sys2Proof.Machine.execSub a b s
  | .cmp a b => Sys2Proof.Machine.execCmp a b s
  | .fa x y c => Sys2Proof.Machine.execFa x y c s
  | .fs x y b => Sys2Proof.Machine.execFs x y b s
  | .lt x y l => Sys2Proof.Machine.execLt x y l s
  | .reserved011 => Sys2Proof.Machine.execReserved011 s
  | .reserved111 => Sys2Proof.Machine.execReserved111 s

end Sys2Proof.Machine
end

