-- ==== Sys2Proof/Machine/Step.lean ====
section
/-! DEFINITION. One step is one evaluation: the request on the port is decoded and executed
(00_scope.md R6; 10_state.md R32). There is no program counter and no fetch (R21). -/

namespace Sys2Proof.Machine

/-- One evaluation of the request the port shows (R6, R67). The Caller holds the port (R165), so it is
unchanged after the step. -/
def step (s : State) : Host.Outcome State Fault Refusal := exec (decode s.req) s

/-- The Caller drives the request written as the word `w` of `nbits` bits, the bits above 0 (R54). It
presents a request at the port, so no response stands there (R26); the CORE loads no program (log entry 5). -/
def State.withFetchWord (s : State) (nbits w : Nat) : State :=
  s.present (unpack s.cfg (w % 2 ^ nbits))

end Sys2Proof.Machine
end

