-- ==== Sys2Proof/Safety.lean ====
section
/-! DEFINITION. What claims use: a port whose fields fit their widths, the invariant of every step, and the
Caller's launch premises (70_reset_and_hazards.md R163). -/

namespace Sys2Proof.Machine

/-- Every request field fits its width (30_encoding.md R54): what the Caller can drive. -/
structure RequestFits (c : Config) (q : Request) : Prop where
  aLen : q.aLen < 2 ^ c.lw
  a    : q.a < 2 ^ c.wmax
  bLen : q.bLen < 2 ^ c.lw
  b    : q.b < 2 ^ c.wmax

/-- What every response satisfies (R55, R59, R60): the length is at most WMAX + 1, the bits of R at and above
R_LEN are 0, only a response with a sequence result has a sign, and LESS stands alone. -/
structure ResponseFits (c : Config) (r : Response) : Prop where
  length : r.rLen ≤ c.wmax + 1
  result : r.r < 2 ^ r.rLen
  sign   : r.sign = true → 1 ≤ r.rLen
  less   : r.less = true → r.rLen = 0 ∧ r.sign = false ∧ r.sout = false

/-- The invariant of a state: WMAX is legal (R7), the request port holds values of its widths, and a response on
the response port is one a CORE of this WMAX can drive, and is the response to the request on the request port
(R26: a response field holds a value only for the request that produced it). -/
structure State.Inv (s : State) : Prop where
  wmax : s.cfg.Valid
  req  : RequestFits s.cfg s.req
  rsp  : ∀ r, s.rsp = some r → ResponseFits s.cfg r
  held : ∀ r, s.rsp = some r → step s = .next s

/-- A safe step: the evaluation ends with a response, not with a refusal. -/
def State.Answers (s : State) : Prop := ∃ t, step s = .next t

/-- R163 items 2 and 3: the operands are normalized, or of equal length. Arithmetic correctness of CMP and SUB
takes this premise. -/
abbrev Comparable (a b : BitSeq) : Prop := (Normalized a ∧ Normalized b) ∨ a.length = b.length

/-- What the Caller observes of one evaluation: the response port after it, or the reason of the refusal. -/
def State.observed (s : State) : Except Refusal (Option Response) :=
  match step s with
  | .next t => .ok t.rsp
  | .refused why => .error why

/-- The Caller issues one request: it presents it, and the CORE evaluates it. -/
def State.issue (s : State) (q : Request) : Result := step (s.present q)

/-- The Caller issues a list of requests, first to last. A refused request ends the run: "the run is marked refused
for good" (R143). -/
def State.issueAll (s : State) : List Request → Result
  | [] => .next s
  | q :: qs =>
    match s.issue q with
    | .next t => t.issueAll qs
    | .refused why => .refused why

/-- The sequence a response carries (R56 read on the result bus, R59). -/
def Response.resultSeq (r : Response) : BitSeq := seqOfBus r.r r.rLen

/-- The number of digits of the binary form of a number without leading zeros; 0 has one digit (R22). -/
def digits (n : Nat) : Nat := if n = 0 then 1 else Nat.log2 n + 1

/-- The operation codes of the sequence operations, `OP[2] = 0` and not reserved (R53). -/
abbrev IsSequenceOp (op : BitVec 3) : Prop := op = 0b000#3 ∨ op = 0b001#3 ∨ op = 0b010#3

/-- The operation codes of the cell operations, `OP[2] = 1` and not reserved (R53). -/
abbrev IsCellOp (op : BitVec 3) : Prop := op = 0b100#3 ∨ op = 0b101#3 ∨ op = 0b110#3

end Sys2Proof.Machine
end

