-- ==== Sys2Proof/Certificates/Slice0/Obligations.lean ====
section
/-! DEFINITION. The statements about the CORE, from the numbered rules of spec/. A statement about an
instruction's result gives its whole next state, so it is also its frame and its completion. -/

open Sys2Proof Sys2Proof.Machine

/-! ## Sequences, gates and cells -/

/-- R11: the value of a sequence is the sum of its bits at their weights; R10: the padded read. -/
def Obligations.SequenceValueIsWeightedSum : Prop :=
  ∀ s : BitSeq,
    val s = ∑ i ∈ Finset.range s.length, (bitAt s i).toNat * 2 ^ i ∧
    (∀ i (h : i < s.length), bitAt s i = s[s.length - 1 - i]) ∧
    (∀ i, s.length ≤ i → bitAt s i = false)

/-- R23: what normalization does and its four properties. -/
def Obligations.NormStripsLeadingZeros : Prop :=
  ∀ s : BitSeq, s ≠ [] →
    (∃ k, s = List.replicate k false ++ normSeq s) ∧
    (2 ≤ (normSeq s).length → (normSeq s).head? = some true) ∧
    val (normSeq s) = val s ∧ 1 ≤ (normSeq s).length ∧ normSeq (normSeq s) = normSeq s ∧
    (normSeq s = [false] ↔ val s = 0)

/-- R80 to R83: the four gates by their definitions, and the corner cases the rules list. -/
def Obligations.GatesFollowTruthTables : Prop :=
  ∀ x y z : Bit,
    (gateNot x).toNat = 1 - x.toNat ∧
    (gateAnd x y = true ↔ x = true ∧ y = true) ∧
    (gateOr x y = false ↔ x = false ∧ y = false) ∧
    gateXor x y = gateAnd (gateOr x y) (gateOr (gateNot x) (gateNot y)) ∧
    (gateXor x y = true ↔ x ≠ y) ∧
    gateAnd x y = gateAnd y x ∧ gateOr x y = gateOr y x ∧ gateXor x y = gateXor y x ∧
    gateXor x x = false ∧ gateXor x false = x ∧
    gateXor (gateXor x y) z = gateXor x (gateXor y z)

/-- R90 to R93: the adder and subtractor cells by their formulas and by the columns of their tables. -/
def Obligations.AdderAndSubtractorCells : Prop :=
  (∃ x y b : Bit, borrowOut x y b ≠ borrowOut y x b) ∧
  ∀ x y c : Bit,
    sumBit x y c = gateXor (gateXor x y) c ∧
    (sumBit x y c).toNat = (x.toNat + y.toNat + c.toNat) % 2 ∧
    sumBit x y c = sumBit y x c ∧ sumBit x y c = sumBit x c y ∧
    carryOut x y c = gateOr (gateAnd x y) (gateAnd c (gateXor x y)) ∧
    (carryOut x y c = true ↔ 2 ≤ x.toNat + y.toNat + c.toNat) ∧
    carryOut x y c = carryOut y x c ∧ carryOut x y c = carryOut x c y ∧
    diffBit x y c = gateXor (gateXor x y) c ∧ diffBit x y c = sumBit x y c ∧
    borrowOut x y c =
      gateOr (gateOr (gateAnd (gateNot x) c) (gateAnd (gateNot x) y)) (gateAnd y c) ∧
    (borrowOut x y c = true ↔ x.toNat < y.toNat + c.toNat) ∧
    borrowOut x y c = borrowOut x c y

/-- R94: the comparator cell decides where the bits differ and passes `l` where they are equal. -/
def Obligations.LessSoFarDecidesOrPasses : Prop :=
  ∀ x y l : Bit,
    lessSoFar x y l = gateOr (gateOr (gateAnd y l) (gateAnd (gateNot x) y)) (gateAnd (gateNot x) l) ∧
    (x = false → y = true → lessSoFar x y l = true) ∧
    (x = true → y = false → lessSoFar x y l = false) ∧
    (x = y → lessSoFar x y l = l)

/-- R98: the four identities of the cells. -/
def Obligations.CellIdentities : Prop :=
  ∀ x y s : Bit,
    x.toNat + y.toNat + s.toNat = (sumBit x y s).toNat + 2 * (carryOut x y s).toNat ∧
    (x.toNat : Int) - y.toNat - s.toNat = (diffBit x y s).toNat - 2 * ((borrowOut x y s).toNat : Int) ∧
    lessSoFar x y s = borrowOut x y s ∧
    sumBit x y s = sumBit y x s ∧ carryOut x y s = carryOut y x s

/-! ## FA, FS, LT -/

/-- R95: FA answers the sum bit on R[0] and the carry on SOUT, from A[0], B[0] and SIN. -/
def Obligations.FaAnswersFullAdderCell : Prop :=
  (∀ (s : State) (x y c : Bit),
    exec (.fa x y c) s = .next (s.withRsp
      { r := (sumBit x y c).toNat, rLen := 1, sign := false, less := false, sout := carryOut x y c })) ∧
  (∀ s : State, s.req.op = 0b100#3 →
    step s = exec (.fa (s.req.a.testBit 0) (s.req.b.testBit 0) s.req.sin) s) ∧
  (∀ x y c : Bit, printLine (.fa x y c) = some (['f', 'a', ' '] ++ printBits x y c))

/-- R96: FS answers the difference bit on R[0] and the borrow on SOUT. -/
def Obligations.FsAnswersFullSubtractorCell : Prop :=
  (∀ (s : State) (x y b : Bit),
    exec (.fs x y b) s = .next (s.withRsp
      { r := (diffBit x y b).toNat, rLen := 1, sign := false, less := false, sout := borrowOut x y b })) ∧
  (∀ s : State, s.req.op = 0b101#3 →
    step s = exec (.fs (s.req.a.testBit 0) (s.req.b.testBit 0) s.req.sin) s) ∧
  (∀ x y b : Bit, printLine (.fs x y b) = some (['f', 's', ' '] ++ printBits x y b))

/-- R97: LT answers the less-so-far bit on SOUT, not on LESS, and no sequence. -/
def Obligations.LtAnswersOnSout : Prop :=
  (∀ (s : State) (x y l : Bit),
    exec (.lt x y l) s = .next (s.withRsp
      { r := 0, rLen := 0, sign := false, less := false, sout := lessSoFar x y l })) ∧
  (∀ s : State, s.req.op = 0b110#3 →
    step s = exec (.lt (s.req.a.testBit 0) (s.req.b.testBit 0) s.req.sin) s) ∧
  (∀ x y l : Bit, printLine (.lt x y l) = some (['l', 't', ' '] ++ printBits x y l))

/-! ## ADD -/

/-- R110: ADD is the row of sum and carry cells, the carry seeded 0 and threaded from position 0 up, a final
carry prepended and shown on SOUT. -/
def Obligations.AddIsRippleCarryChain : Prop :=
  (∀ (s : State) (a b : BitSeq), LegalOperands s.cfg a b →
    ∃ (c : Nat → Bit) (raw r : BitSeq),
      c 0 = false ∧ raw.length = max a.length b.length ∧
      (∀ i, i < max a.length b.length →
        bitAt raw i = sumBit (bitAt a i) (bitAt b i) (c i) ∧
        c (i + 1) = carryOut (bitAt a i) (bitAt b i) (c i)) ∧
      r = (if c (max a.length b.length) = true then true :: raw else raw) ∧
      exec (.add a b) s = .next (s.withRsp
        { r := val r, rLen := r.length, sign := false, less := false,
          sout := c (max a.length b.length) })) ∧
  (∀ (s : State) (a b : BitSeq), ¬ LegalOperands s.cfg a b → ∃ why, exec (.add a b) s = .refused why) ∧
  (∀ s : State, s.req.op = 0b000#3 → step s = exec (.add s.req.aSeq s.req.bSeq) s) ∧
  (∀ a b : BitSeq, printLine (.add a b) = some (['a', 'd', 'd', ' '] ++ printSeqs a b))

/-- R113, with the widths of R111: the response of ADD is the exact sum, in `W` digits, or one more exactly
when the sum does not fit `W`. -/
def Obligations.AddAnswersExactSum : Prop :=
  ∀ (s : State) (a b : BitSeq), LegalOperands s.cfg a b →
    exec (.add a b) s = .next (s.withRsp
      { r := val a + val b,
        rLen := max a.length b.length +
          (decide (2 ^ max a.length b.length ≤ val a + val b)).toNat,
        sign := false, less := false,
        sout := decide (2 ^ max a.length b.length ≤ val a + val b) }) ∧
    val a + val b < 2 ^ (max a.length b.length +
      (decide (2 ^ max a.length b.length ≤ val a + val b)).toNat) ∧
    val a + val b < 2 ^ (s.cfg.wmax + 1)

/-- R111: the result is `W` bits, or one more if a final carry occurs, and the carry shows as the leading 1 and
on SOUT. -/
def Obligations.AddResultWidth : Prop :=
  ∀ (s : State) (a b : BitSeq), LegalOperands s.cfg a b →
    ∃ r : Response, exec (.add a b) s = .next (s.withRsp r) ∧
      r.rLen = max a.length b.length + r.sout.toNat ∧
      (r.sout = true → r.resultSeq.head? = some true) ∧
      r.sout = chainState carryOut a b (max a.length b.length) ∧
      r.rLen ≤ s.cfg.wmax + 1 ∧ r.r < 2 ^ (s.cfg.wmax + 1)

/-- R114: ADD is commutative, in the whole outcome: digits, length and final carry. -/
def Obligations.AddCommutes : Prop :=
  ∀ (s : State) (a b : BitSeq), exec (.add a b) s = exec (.add b a) s

/-- R115: when the ADD result has a leading zero, and that unnormalized operands can leave any number. -/
def Obligations.AddLeadingZeros : Prop :=
  (∀ (s : State) (n : Nat), 1 ≤ n → n ≤ s.cfg.wmax →
    exec (.add (List.replicate n false) [false]) s = .next (s.withRsp
      { r := 0, rLen := n, sign := false, less := false, sout := false })) ∧
  ∀ (s : State) (a b : BitSeq), LegalOperands s.cfg a b →
    ∃ r : Response, exec (.add a b) s = .next (s.withRsp r) ∧
      (r.sout = true → r.resultSeq.head? = some true) ∧
      (r.sout = false → r.resultSeq.head? = some (sumBit (bitAt a (max a.length b.length - 1))
        (bitAt b (max a.length b.length - 1)) (chainState carryOut a b (max a.length b.length - 1)))) ∧
      (¬ Normalized r.resultSeq ↔
        2 ≤ max a.length b.length ∧ bitAt a (max a.length b.length - 1) = false ∧
        bitAt b (max a.length b.length - 1) = false ∧
        chainState carryOut a b (max a.length b.length - 1) = false) ∧
      (¬ Normalized r.resultSeq →
        (b.length ≤ a.length → ¬ Normalized a) ∧ (a.length ≤ b.length → ¬ Normalized b)) ∧
      (Normalized a → Normalized b → Normalized r.resultSeq)

/-- R116: adding a sequence to itself doubles it; a normalized one other than `[0]` gets a 0 appended. -/
def Obligations.AddSelfAppendsZero : Prop :=
  ∀ (s : State) (a : BitSeq), LegalLength s.cfg a →
    ∃ r : Response, exec (.add a a) s = .next (s.withRsp r) ∧
      val r.resultSeq = 2 * val a ∧
      (Normalized a → a ≠ [false] → r.resultSeq = a ++ [false]) ∧
      (a = [false] → r.resultSeq = [false])

/-- 95_test_vectors.md P4, for every pair of operands: threading SOUT of one FA into SIN of the next, least
significant bit first, gives ADD's digits and ADD's final carry. -/
def Obligations.AddIsChainOfFaCells : Prop :=
  ∀ (s : State) (a b : BitSeq), LegalOperands s.cfg a b →
    ∃ (r : Response) (cell : Nat → Response),
      exec (.add a b) s = .next (s.withRsp r) ∧
      exec (.fa (bitAt a 0) (bitAt b 0) false) s = .next (s.withRsp (cell 0)) ∧
      (∀ i, i + 1 < max a.length b.length →
        exec (.fa (bitAt a (i + 1)) (bitAt b (i + 1)) (cell i).sout) s =
          .next (s.withRsp (cell (i + 1)))) ∧
      (∀ i, i < max a.length b.length → r.r.testBit i = (cell i).r.testBit 0) ∧
      r.sout = (cell (max a.length b.length - 1)).sout

/-! ## CMP -/

/-- R120: CMP answers by length when the lengths differ, else by the fold of the comparator cell from position
0 up, seeded 0. -/
def Obligations.CmpIsLengthTestThenFold : Prop :=
  (∀ (s : State) (a b : BitSeq), LegalOperands s.cfg a b →
    ∃ (l : Nat → Bit), l 0 = false ∧
      (∀ i, i < a.length → l (i + 1) = lessSoFar (bitAt a i) (bitAt b i) (l i)) ∧
      exec (.cmp a b) s = .next (s.withRsp
        { r := 0, rLen := 0, sign := false,
          less := if a.length ≠ b.length then decide (a.length < b.length) else l a.length,
          sout := false })) ∧
  (∀ (s : State) (a b : BitSeq), ¬ LegalOperands s.cfg a b → ∃ why, exec (.cmp a b) s = .refused why) ∧
  (∀ s : State, s.req.op = 0b010#3 → step s = exec (.cmp s.req.aSeq s.req.bSeq) s) ∧
  (∀ a b : BitSeq, printLine (.cmp a b) = some (['c', 'm', 'p', ' '] ++ printSeqs a b))

/-- R121: at equal lengths the most significant differing position decides, and the fold is the borrow chain
of A - B. -/
def Obligations.CmpDecidedByTopDifference : Prop :=
  ∀ (s : State) (a b : BitSeq), LegalOperands s.cfg a b → a.length = b.length →
    ∃ r : Response, exec (.cmp a b) s = .next (s.withRsp r) ∧
      (r.less = true ↔ ∃ i, i < a.length ∧ bitAt a i = false ∧ bitAt b i = true ∧
        ∀ j, i < j → j < a.length → bitAt a j = bitAt b j) ∧
      r.less = chainState borrowOut a b a.length

/-- R122: at different lengths the result is the length-rule result, whatever the operands hold. -/
def Obligations.CmpByLengthReadsNoBit : Prop :=
  ∀ (s : State) (a b : BitSeq), LegalOperands s.cfg a b → a.length ≠ b.length →
    exec (.cmp a b) s = .next (s.withRsp
      { r := 0, rLen := 0, sign := false, less := decide (a.length < b.length), sout := false }) ∧
    (∀ a' b' : BitSeq, a'.length = a.length → b'.length = b.length →
      exec (.cmp a' b') s = exec (.cmp a b) s) ∧
    (¬ (a.length < b.length ↔ val a < val b) → ¬ Normalized a ∨ ¬ Normalized b)

/-- R123: CMP is magnitude comparison at equal lengths, and at different lengths of normalized operands; the
premise is needed. -/
def Obligations.CmpComparesMagnitudes : Prop :=
  (∀ (s : State) (a b : BitSeq), LegalOperands s.cfg a b → a.length = b.length →
    exec (.cmp a b) s = .next (s.withRsp
      { r := 0, rLen := 0, sign := false, less := decide (val a < val b), sout := false })) ∧
  (∀ (s : State) (a b : BitSeq), LegalOperands s.cfg a b → a.length ≠ b.length →
    Normalized a → Normalized b →
    exec (.cmp a b) s = .next (s.withRsp
      { r := 0, rLen := 0, sign := false, less := decide (val a < val b), sout := false })) ∧
  (∀ s : State, 3 ≤ s.cfg.wmax →
    exec (.cmp [false, false, true] [true, false]) s = .next (s.withRsp
      { r := 0, rLen := 0, sign := false, less := false, sout := false }) ∧
    val [false, false, true] < val [true, false])

/-- R124: there is no EQUAL result; a sequence is NOT_LESS than itself, and equal values are NOT_LESS both
ways under the premise of R123. -/
def Obligations.CmpHasNoEqual : Prop :=
  (∀ r : ComparisonResult, r = .less ∨ r = .notLess) ∧
  (∀ (s : State) (a : BitSeq), LegalLength s.cfg a →
    exec (.cmp a a) s = .next (s.withRsp
      { r := 0, rLen := 0, sign := false, less := false, sout := false })) ∧
  (∀ (s : State) (a b : BitSeq), LegalOperands s.cfg a b → Comparable a b → val a = val b →
    exec (.cmp a b) s = .next (s.withRsp
      { r := 0, rLen := 0, sign := false, less := false, sout := false }) ∧
    exec (.cmp b a) s = exec (.cmp a b) s) ∧
  (∀ (s : State) (a b : BitSeq), LegalOperands s.cfg a b → Comparable a b → val b < val a →
    exec (.cmp a b) s = .next (s.withRsp
      { r := 0, rLen := 0, sign := false, less := false, sout := false }) ∧
    exec (.cmp b a) s = .next (s.withRsp
      { r := 0, rLen := 0, sign := false, less := true, sout := false }))

/-! ## SUB -/

/-- R130: SUB compares, swaps, subtracts with the row of difference and borrow cells, the borrow seeded 0 and
threaded from position 0 up, and normalizes. -/
def Obligations.SubIsCompareSwapRippleNorm : Prop :=
  (∀ (s : State) (a b : BitSeq), LegalOperands s.cfg a b →
    ∃ (q : Response) (m n raw : BitSeq) (c : Nat → Bit),
      exec (.cmp a b) s = .next (s.withRsp q) ∧
      (m, n) = (if q.less = true then (b, a) else (a, b)) ∧
      c 0 = false ∧ raw.length = max m.length n.length ∧
      (∀ i, i < max m.length n.length →
        bitAt raw i = diffBit (bitAt m i) (bitAt n i) (c i) ∧
        c (i + 1) = borrowOut (bitAt m i) (bitAt n i) (c i)) ∧
      exec (.sub a b) s = .next (s.withRsp
        { r := val (normSeq raw), rLen := (normSeq raw).length, sign := q.less, less := false,
          sout := c (max m.length n.length) })) ∧
  (∀ (s : State) (a b : BitSeq), ¬ LegalOperands s.cfg a b → ∃ why, exec (.sub a b) s = .refused why) ∧
  (∀ s : State, s.req.op = 0b001#3 → step s = exec (.sub s.req.aSeq s.req.bSeq) s) ∧
  (∀ a b : BitSeq, printLine (.sub a b) = some (['s', 'u', 'b', ' '] ++ printSeqs a b))

/-- R131: the sign of SUB is NEGATIVE exactly when CMP of the same operands is LESS; equal operands are
POSITIVE. -/
def Obligations.SubSignIsCompare : Prop :=
  ∀ (s : State) (a b : BitSeq), LegalOperands s.cfg a b →
    ∃ r q : Response, exec (.sub a b) s = .next (s.withRsp r) ∧
      exec (.cmp a b) s = .next (s.withRsp q) ∧
      r.sign = q.less ∧ (a = b → r.sign = false)

/-- R132: the magnitude has at most `W` bits and the final borrow is on SOUT only: it is 1 exactly when the
minuend after the swap is smaller, which the premise of R163 rules out. -/
def Obligations.SubBorrowNotInMagnitude : Prop :=
  ∀ (s : State) (a b : BitSeq), LegalOperands s.cfg a b →
    (rawDifference a b).length = max a.length b.length ∧
    ∃ r : Response, exec (.sub a b) s = .next (s.withRsp r) ∧
      r.rLen ≤ max a.length b.length ∧
      (r.sign = false → (r.sout = true ↔ val a < val b)) ∧
      (r.sign = true → (r.sout = true ↔ val b < val a)) ∧
      (Comparable a b → r.sout = false)

/-- R133: the magnitude is normalized. -/
def Obligations.SubMagnitudeIsNormalized : Prop :=
  ∀ (s : State) (a b : BitSeq), LegalOperands s.cfg a b →
    ∃ r : Response, exec (.sub a b) s = .next (s.withRsp r) ∧
      r.resultSeq = normSeq (if r.sign = true then rawDifference b a else rawDifference a b) ∧
      Normalized r.resultSeq ∧ 1 ≤ r.rLen ∧
      (2 ≤ r.rLen → r.resultSeq.head? = some true)

/-- R134: under the premise of R163 item 3, SUB answers the normalized binary form of |val A - val B|, the sign
of val A - val B, and no final borrow. -/
def Obligations.SubAnswersSignMagnitude : Prop :=
  ∀ (s : State) (a b : BitSeq), LegalOperands s.cfg a b → Comparable a b →
    exec (.sub a b) s = .next (s.withRsp
      { r := ((val a : Int) - val b).natAbs, rLen := digits ((val a : Int) - val b).natAbs,
        sign := decide (val a < val b), less := false, sout := false })

/-- R135: at different lengths, normalized or not, SUB takes the longer operand as minuend; if that is the
smaller number, the magnitude is the `W`-bit wrap-around difference and SOUT is 1. -/
def Obligations.SubWrapsWhenLengthMisjudges : Prop :=
  (∀ (s : State) (a b : BitSeq), LegalOperands s.cfg a b → b.length < a.length →
    exec (.sub a b) s = .next (s.withRsp
      { r := if val a < val b then val a + 2 ^ a.length - val b else val a - val b,
        rLen := digits (if val a < val b then val a + 2 ^ a.length - val b else val a - val b),
        sign := false, less := false, sout := decide (val a < val b) })) ∧
  (∀ (s : State) (a b : BitSeq), LegalOperands s.cfg a b → a.length < b.length →
    exec (.sub a b) s = .next (s.withRsp
      { r := if val b < val a then val b + 2 ^ b.length - val a else val b - val a,
        rLen := digits (if val b < val a then val b + 2 ^ b.length - val a else val b - val a),
        sign := true, less := false, sout := decide (val b < val a) }))

/-- R136: for normalized A and B with val A >= val B, adding the magnitude of SUB back to B answers A itself,
and no other normalized sequence does. -/
def Obligations.SubThenAddRoundTrips : Prop :=
  ∀ (s : State) (a b : BitSeq), LegalOperands s.cfg a b → Normalized a → Normalized b → val b ≤ val a →
    ∃ r q : Response, exec (.sub a b) s = .next (s.withRsp r) ∧ Normalized r.resultSeq ∧
      exec (.add b r.resultSeq) s = .next (s.withRsp q) ∧ q.resultSeq = a ∧
      ∀ (d : BitSeq) (p : Response), Normalized d →
        exec (.add b d) s = .next (s.withRsp p) → p.resultSeq = a → d = r.resultSeq

/-- R137: a sequence less itself is ([0], POSITIVE), normalized or not. -/
def Obligations.SubSelfIsZero : Prop :=
  ∀ (s : State) (a : BitSeq), LegalLength s.cfg a →
    exec (.sub a a) s = .next (s.withRsp
      { r := 0, rLen := 1, sign := false, less := false, sout := false })

/-! ## Requests, responses and words -/

/-- R8: the widths of the length fields, and what they hold. -/
def Obligations.LengthFieldWidths : Prop :=
  ∀ c : Config, c.Valid →
    c.lw = Nat.clog 2 (c.wmax + 1) ∧ c.lrw = Nat.clog 2 (c.wmax + 2) ∧
    (∀ n, n ≤ c.wmax → n < 2 ^ c.lw) ∧ (∀ n, n ≤ c.wmax + 1 → n < 2 ^ c.lrw)

/-- R53: the operation map, all eight codes. -/
def Obligations.OperationMap : Prop :=
  ∀ s : State,
    (s.req.op = 0b000#3 → step s = exec (.add s.req.aSeq s.req.bSeq) s) ∧
    (s.req.op = 0b001#3 → step s = exec (.sub s.req.aSeq s.req.bSeq) s) ∧
    (s.req.op = 0b010#3 → step s = exec (.cmp s.req.aSeq s.req.bSeq) s) ∧
    (s.req.op = 0b011#3 → step s = .refused .reservedOp) ∧
    (s.req.op = 0b100#3 → step s = exec (.fa (s.req.a.testBit 0) (s.req.b.testBit 0) s.req.sin) s) ∧
    (s.req.op = 0b101#3 → step s = exec (.fs (s.req.a.testBit 0) (s.req.b.testBit 0) s.req.sin) s) ∧
    (s.req.op = 0b110#3 → step s = exec (.lt (s.req.a.testBit 0) (s.req.b.testBit 0) s.req.sin) s) ∧
    (s.req.op = 0b111#3 → step s = .refused .reservedOp)

/-- R54, R66: the packed request word holds every field at its position, and nothing else. -/
def Obligations.RequestWordHoldsEveryField : Prop :=
  (∀ (c : Config) (q : Request), RequestFits c q →
    pack c q < 2 ^ (3 + 2 * c.lw + 2 * c.wmax + 1) ∧
    bits (pack c q) 0 3 = q.op.toNat ∧
    bits (pack c q) 3 c.lw = q.aLen ∧
    bits (pack c q) (c.lw + 3) c.wmax = q.a ∧
    bits (pack c q) (c.lw + c.wmax + 3) c.lw = q.bLen ∧
    bits (pack c q) (2 * c.lw + c.wmax + 3) c.wmax = q.b ∧
    bits (pack c q) (2 * c.lw + 2 * c.wmax + 3) 1 = q.sin.toNat ∧
    unpack c (pack c q) = q) ∧
  (∀ (c : Config) (w : Nat), w < 2 ^ (3 + 2 * c.lw + 2 * c.wmax + 1) →
    RequestFits c (unpack c w) ∧ pack c (unpack c w) = w)

/-- R55: the packed response word holds every field at its position. -/
def Obligations.ResponseWordHoldsEveryField : Prop :=
  ∀ (c : Config) (r : Response), ResponseFits c r →
    packResponse c r < 2 ^ (c.wmax + c.lrw + 4) ∧
    bits (packResponse c r) 0 (c.wmax + 1) = r.r ∧
    bits (packResponse c r) (c.wmax + 1) c.lrw = r.rLen ∧
    bits (packResponse c r) (c.wmax + c.lrw + 1) 1 = r.sign.toNat ∧
    bits (packResponse c r) (c.wmax + c.lrw + 2) 1 = r.less.toNat ∧
    bits (packResponse c r) (c.wmax + c.lrw + 3) 1 = r.sout.toNat

/-- R56: operand assembly for the sequence operations, and the bus bits at and above the length change no
response. -/
def Obligations.SequenceOperandAssembly : Prop :=
  (∀ q : Request,
    q.aSeq.length = q.aLen ∧ (∀ j, j < q.aLen → bitAt q.aSeq j = q.a.testBit j) ∧
    q.bSeq.length = q.bLen ∧ (∀ j, j < q.bLen → bitAt q.bSeq j = q.b.testBit j) ∧
    val q.aSeq = q.a % 2 ^ q.aLen ∧ val q.bSeq = q.b % 2 ^ q.bLen) ∧
  (∀ (s : State) (a b : Nat), IsSequenceOp s.req.op →
    (∀ j, j < s.req.aLen → a.testBit j = s.req.a.testBit j) →
    (∀ j, j < s.req.bLen → b.testBit j = s.req.b.testBit j) →
    (s.present { s.req with a := a, b := b }).observed = s.observed)

/-- R57: a cell operation reads A[0], B[0] and SIN, and nothing else. -/
def Obligations.CellOperandAssembly : Prop :=
  (∀ q : Request,
    (q.op = 0b100#3 → decode q = .fa (q.a.testBit 0) (q.b.testBit 0) q.sin) ∧
    (q.op = 0b101#3 → decode q = .fs (q.a.testBit 0) (q.b.testBit 0) q.sin) ∧
    (q.op = 0b110#3 → decode q = .lt (q.a.testBit 0) (q.b.testBit 0) q.sin)) ∧
  (∀ s t : State, IsCellOp s.req.op → t.req.op = s.req.op →
    t.req.a.testBit 0 = s.req.a.testBit 0 → t.req.b.testBit 0 = s.req.b.testBit 0 →
    t.req.sin = s.req.sin → t.observed = s.observed)

/-- R58: ADD, SUB and CMP ignore SIN; their chains are seeded with 0. -/
def Obligations.SequenceOpsIgnoreSin : Prop :=
  (∀ (s : State) (v : Bit), IsSequenceOp s.req.op →
    (s.present { s.req with sin := v }).observed = s.observed) ∧
  (∀ (next : Bit → Bit → Bit → Bit) (a b : BitSeq), chainState next a b 0 = false)

/-- R59: a sequence result is driven with its length, weight-indexed, the bits above it 0; CMP and LT drive no
sequence. -/
def Obligations.ResultAssembly : Prop :=
  (∀ (r : BitSeq) (sout : Bit),
    (sequenceResponse r sout).rLen = r.length ∧
    (∀ j, j < r.length → (sequenceResponse r sout).r.testBit j = bitAt r j) ∧
    (∀ j, r.length ≤ j → (sequenceResponse r sout).r.testBit j = false)) ∧
  (∀ (s : State) (a b : BitSeq), LegalOperands s.cfg a b →
    (exec (.add a b) s = .next (s.withRsp (sequenceResponse (addSeq a b) (finalCarry a b)))) ∧
    ∃ (m n : BitSeq) (sign : Sign), orderOperands a b = (m, n, sign) ∧
      exec (.sub a b) s = .next (s.withRsp
        { sequenceResponse (normSeq (rawDifference m n)) (finalBorrow m n) with sign := signBit sign })) ∧
  (∀ (s : State) (x y c : Bit),
    exec (.fa x y c) s = .next (s.withRsp (sequenceResponse [sumBit x y c] (carryOut x y c))) ∧
    exec (.fs x y c) s = .next (s.withRsp (sequenceResponse [diffBit x y c] (borrowOut x y c)))) ∧
  (∀ (s t : State) (r : Response) (i : Instr), exec i s = .next t → t.rsp = some r →
    ((∃ a b, i = .cmp a b) ∨ (∃ x y l, i = .lt x y l)) → r.rLen = 0 ∧ r.r = 0)

/-- R60: a field that an operation does not define is driven 0. -/
def Obligations.UndefinedFieldsAreZero : Prop :=
  ∀ (s t : State) (i : Instr), exec i s = .next t →
    ∃ r, t.rsp = some r ∧
      ((∃ a b, i = .sub a b) ∨ r.sign = false) ∧
      ((∃ a b, i = .cmp a b) ∨ r.less = false) ∧
      ((∃ a b, i = .cmp a b) → r.sout = false) ∧
      ((∃ a b, i = .cmp a b) ∨ (∃ x y l, i = .lt x y l) → r.r = 0 ∧ r.rLen = 0) ∧
      ((∃ x y c, i = .fa x y c) ∨ (∃ x y b, i = .fs x y b) → r.rLen = 1)

/-- R62: the single-bit encodings of the enumerations. -/
def Obligations.EnumerationBits : Prop :=
  lessBit .less = true ∧ lessBit .notLess = false ∧ signBit .positive = false ∧ signBit .negative = true

/-- Decoding the request word of a well-formed instruction gives the instruction back, at every WMAX, with
every operand and length (R54, R56, R57, R67). That a reserved code has a constructor and which values the
encoder gives ignored fields are the model's choices (log entries 7 and 13). -/
def Obligations.DecodeOfEncode : Prop :=
  ∀ (c : Config) (i : Instr), c.Valid → i.WellFormed c → decodeWord c (encode c i) = .ok i

/-- A state whose request port was driven with the word of a well-formed instruction runs that instruction (R6,
R54, R67). That withFetchWord drives the port is log entries 5 and 11, the values of the ignored fields on it log
entry 13, and the reserved constructors log entry 7: the model's choices. -/
def Obligations.EncodedInstructionRuns : Prop :=
  ∀ (s : State) (i : Instr), s.cfg.Valid → i.WellFormed s.cfg →
    (s.withFetchWord s.cfg.reqWidth (encode s.cfg i)).req = toRequest i ∧
    step (s.withFetchWord s.cfg.reqWidth (encode s.cfg i)) =
      exec i (s.withFetchWord s.cfg.reqWidth (encode s.cfg i))

/-- One step is exec of the instruction the port decodes to; step adds nothing around it (R67). -/
def Obligations.StepRunsDecodedRequest : Prop :=
  ∀ (s : State) (i : Instr), decode s.req = i → step s = exec i s

/-- Request words of 95_test_vectors.md (WMAX = 8) decode to their requests; one for each operation code, and
one with every ignored bit set. The reserved constructors are log entry 7. -/
def Obligations.TestVectorWordsDecode : Prop :=
  decodeWord Config.vectors 0x0190298 = .ok (.add [true, false, true] [true, true]) ∧
  decodeWord Config.vectors 0x0298191 = .ok (.sub [true, true] [true, false, true]) ∧
  decodeWord Config.vectors 0x0218112 = .ok (.cmp [true, false] [true, false, false]) ∧
  decodeWord Config.vectors 0x808808C = .ok (.fa true true true) ∧
  decodeWord Config.vectors 0x008800D = .ok (.fs false true false) ∧
  decodeWord Config.vectors 0x800808E = .ok (.lt true false true) ∧
  decodeWord Config.vectors 0x008808B = .ok .reserved011 ∧
  decodeWord Config.vectors 0x800808F = .ok .reserved111 ∧
  decodeWord Config.vectors 0xFF97E98 = .ok (.add [true, false, true] [true, true])

/-- R68: an assembler line stands for the request it was written from, with the literal lengths, and every
request that is not a reserved code has a line. The exact spacing is the model's choice (log entry 12). -/
def Obligations.AssemblerLineRoundTrips : Prop :=
  ∀ (c : Config) (i : Instr), i.Legal c →
    ∃ l, printLine i = some l ∧ parseLine l = some i

/-! ## Refusals, and the machine as a whole -/

/-- R64: a sequence request is legal only with both lengths from 1 to WMAX, and the cells do not check
lengths. -/
def Obligations.LengthsAreChecked : Prop :=
  (∀ (s : State) (a b : BitSeq), a.length = 0 ∨ b.length = 0 →
    exec (.add a b) s = .refused .emptyOperand ∧ exec (.sub a b) s = .refused .emptyOperand ∧
    exec (.cmp a b) s = .refused .emptyOperand) ∧
  (∀ (s : State) (a b : BitSeq), a.length ≠ 0 → b.length ≠ 0 →
    s.cfg.wmax < a.length ∨ s.cfg.wmax < b.length →
    exec (.add a b) s = .refused .lengthOutOfRange ∧ exec (.sub a b) s = .refused .lengthOutOfRange ∧
    exec (.cmp a b) s = .refused .lengthOutOfRange) ∧
  (∀ s : State, IsCellOp s.req.op → ∃ t, step s = .next t)

/-- R143 and the order of R146, on the fields of the request port: exactly these requests are refused, each for
the first reason that applies. `BitOutOfDomain` cannot arise on two-valued bits (R142; log entry 6). -/
def Obligations.RefusedExactlyWhen : Prop :=
  ∀ (s : State) (why : Refusal), step s = .refused why ↔
    (why = .reservedOp ∧ (s.req.op = 0b011#3 ∨ s.req.op = 0b111#3)) ∨
    (why = .emptyOperand ∧ IsSequenceOp s.req.op ∧ (s.req.aLen = 0 ∨ s.req.bLen = 0)) ∨
    (why = .lengthOutOfRange ∧ IsSequenceOp s.req.op ∧ s.req.aLen ≠ 0 ∧ s.req.bLen ≠ 0 ∧
      (s.cfg.wmax < s.req.aLen ∨ s.cfg.wmax < s.req.bLen))

/-- R144: the reserved operation codes are refused with ReservedOp. -/
def Obligations.ReservedCodesRefused : Prop :=
  (∀ s : State, exec .reserved011 s = .refused .reservedOp ∧ exec .reserved111 s = .refused .reservedOp) ∧
  (∀ s : State, s.req.op = 0b011#3 ∨ s.req.op = 0b111#3 → step s = .refused .reservedOp)

/-- R140: no fault ever, and every legal request gets a response. -/
def Obligations.LegalRequestsAnswered : Prop :=
  (∀ (s : State) (f : Fault), step s ≠ .fault f) ∧
  (∀ (s : State), (decode s.req).Legal s.cfg →
    ∃ r, step s = .next (s.withRsp r))

/-- An evaluation changes neither its operands (R30) nor WMAX (R27); it drives the response port (R60) and
nothing else. That State holds WMAX and the two ports is the model's choice (log entries 1 and 2). -/
def Obligations.OnlyResponsePortChanges : Prop :=
  ∀ (s t : State) (i : Instr), exec i s = .next t →
    t.cfg = s.cfg ∧ t.req = s.req ∧ t.rsp.isSome = true

/-- R61: the outcome depends on WMAX and on the request fields, not on an earlier response. -/
def Obligations.ResponseOfRequestAlone : Prop :=
  ∀ s t : State, s.cfg = t.cfg → s.req = t.req → s.observed = t.observed

/-- R45: after any run of answered requests a request has the outcome it has when issued first; so which runs are
answered does not depend on the order of their requests. -/
def Obligations.EarlierRequestsLeaveNoTrace : Prop :=
  (∀ (s t : State) (qs : List Request) (q : Request), s.issueAll qs = .next t →
    (t.present q).observed = (s.present q).observed) ∧
  (∀ (s : State) (qs : List Request),
    (∃ t, s.issueAll qs = .next t) ↔ ∀ q ∈ qs, ∃ t, s.issue q = .next t) ∧
  (∀ (s t : State) (qs ps : List Request), qs.Perm ps → s.issueAll qs = .next t →
    ∃ u, s.issueAll ps = .next u)

/-- R143: a refused request gives no response, and the run is refused for good, whatever requests would follow. -/
def Obligations.RefusedRunStaysRefused : Prop :=
  ∀ (s t : State) (qs rest : List Request) (q : Request) (why : Refusal),
    s.issueAll qs = .next t → (s.present q).observed = .error why →
    t.issue q = .refused why ∧ s.issueAll (qs ++ q :: rest) = .refused why

/-- R26: a response holds only for the request that produced it: none stands with a request that was just
presented, a step drives the response of the request on the port, and nothing reads a response back. That the
absence of a response is `none` is log entry 4. -/
def Obligations.ResponseHeldOnlyForItsRequest : Prop :=
  (∀ (s : State) (q : Request), (s.present q).rsp = none) ∧
  (∀ (s : State) (nbits w : Nat), (s.withFetchWord nbits w).rsp = none) ∧
  (∀ s t : State, step s = .next t →
    ∃ r, t.rsp = some r ∧ (s.present s.req).observed = .ok (some r)) ∧
  (∀ (s : State) (r : Response), step (s.withRsp r) = step s)

/-- R43: evaluating a request twice gives the same response. -/
def Obligations.EvaluationIsIdempotent : Prop :=
  ∀ s t : State, step s = .next t → step t = .next t

/-- R7, of responses: two COREs, of any two WMAX that both admit an instruction, answer it alike. -/
def Obligations.ResponseDoesNotDependOnWmax : Prop :=
  ∀ (s t : State) (i : Instr), i.Legal s.cfg → i.Legal t.cfg →
    ∃ r, exec i s = .next (s.withRsp r) ∧ exec i t = .next (t.withRsp r)

/-- Every step keeps the invariant: WMAX is legal, the request port is as the Caller drives it, and the response
fits its fields, with no bit of R at or above R_LEN, and is the response to the request on the port (R26, R30, R55,
R59, R60). -/
def Obligations.StepKeepsInvariant : Prop :=
  ∀ s t : State, s.Inv → step s = .next t → t.Inv

/-- What the Caller does keeps the invariant: presenting a request whose fields fit, and driving any request word
(R26, R54). How a request enters the state is the model's choice (log entries 1, 5 and 11). -/
def Obligations.PresentingKeepsInvariant : Prop :=
  (∀ (s : State) (q : Request), s.Inv → RequestFits s.cfg q → (s.present q).Inv) ∧
  (∀ (s : State) (nbits w : Nat), s.Inv → (s.withFetchWord nbits w).Inv)

/-- The state after power-up meets the invariant (WMAX and the idle port are log entries 2 and 3). -/
def Obligations.ResetMeetsInvariant : Prop := State.reset.Inv

/-- R31, R160, R161: after power-up no response has been driven, every chain seed is 0, and the first request is
evaluated like every other. That the response port is then `none` is log entry 4. -/
def Obligations.ResetHoldsNothing : Prop :=
  State.reset.rsp = none ∧
  (∀ a b : BitSeq, chainState carryOut a b 0 = false ∧ chainState borrowOut a b 0 = false ∧
    chainState lessSoFar a b 0 = false) ∧
  (∀ (s : State) (q : Request), s.cfg = State.reset.cfg →
    (State.reset.present q).observed = (s.present q).observed)
end

