-- ==== Sys2Proof/Laws/Sequences.lean ====
section
/-! SUPPORT. Sequences: the padded read, the value, normalization, and the passage to and from a bus. -/

namespace Sys2Proof.Machine

/-! ## The padded read -/

theorem bitAt_nil (i : Nat) : bitAt [] i = false := by simp [bitAt]

theorem bitAt_of_length_le {s : BitSeq} {i : Nat} (h : s.length ≤ i) : bitAt s i = false := by
  simp [bitAt, Nat.not_lt.mpr h]

/-- The read of a longer sequence: its first element is the bit of the highest weight. -/
theorem bitAt_cons (b : Bit) (t : BitSeq) (i : Nat) :
    bitAt (b :: t) i = if i = t.length then b else bitAt t i := by
  rcases Nat.lt_trichotomy i t.length with h | h | h
  · have e : t.length - i = (t.length - 1 - i) + 1 := by omega
    simp [bitAt, h, Nat.lt_succ_of_lt h, Nat.ne_of_lt h, e]
  · simp [bitAt, h]
  · have h' : ¬ i < t.length + 1 := by omega
    simp [bitAt, h', Nat.not_lt.mpr (Nat.le_of_lt h), Nat.ne_of_gt h]

/-- Two sequences of one length with the same bits are equal. -/
theorem eq_of_bitAt_eq {s t : BitSeq} (hl : s.length = t.length)
    (h : ∀ i, i < s.length → bitAt s i = bitAt t i) : s = t := by
  induction s generalizing t with
  | nil => cases t <;> simp_all
  | cons b s ih =>
    cases t with
    | nil => simp at hl
    | cons b' t =>
      have hl' : s.length = t.length := by simpa using hl
      have hb : b = b' := by simpa [bitAt_cons, hl'] using h s.length (by simp)
      have ht : s = t := ih hl' fun i hi => by
        simpa [bitAt_cons, Nat.ne_of_lt hi, Nat.ne_of_lt (hl' ▸ hi)] using
          h i (Nat.lt_succ_of_lt hi)
      rw [hb, ht]

/-! ## The value -/

theorem val_lt_two_pow (s : BitSeq) : val s < 2 ^ s.length := by
  induction s with
  | nil => simp [val]
  | cons b t ih =>
    have hb : b.toNat ≤ 1 := by cases b <;> simp
    have := Nat.mul_le_mul_right (2 ^ t.length) hb
    simp only [val, List.length_cons, pow_succ]
    omega

/-- The partial sums of the bits below position `n` (42_ripple_add.md R113's invariant speaks of them). -/
def lowSum (s : BitSeq) : Nat → Nat
  | 0 => 0
  | n + 1 => lowSum s n + (bitAt s n).toNat * 2 ^ n

theorem lowSum_cons (b : Bit) (t : BitSeq) {n : Nat} (h : n ≤ t.length) :
    lowSum (b :: t) n = lowSum t n := by
  induction n with
  | zero => rfl
  | succ n ih =>
    have hn : n ≠ t.length := by omega
    simp [lowSum, ih (by omega), bitAt_cons, hn]

theorem lowSum_length (s : BitSeq) : lowSum s s.length = val s := by
  induction s with
  | nil => rfl
  | cons b t ih =>
    simp [lowSum, lowSum_cons, ih, bitAt_cons, val, Nat.add_comm]

/-- At and above the length the padding adds nothing. -/
theorem lowSum_of_length_le (s : BitSeq) {n : Nat} (h : s.length ≤ n) : lowSum s n = val s := by
  induction n with
  | zero =>
    have : s = [] := List.length_eq_zero_iff.mp (by omega)
    subst this; rfl
  | succ n ih =>
    rcases Nat.eq_or_lt_of_le h with h' | h'
    · rw [← h', lowSum_length]
    · simp [lowSum, ih (by omega), bitAt_of_length_le (Nat.le_of_lt_succ h')]

theorem lowSum_lt (s : BitSeq) (n : Nat) : lowSum s n < 2 ^ n := by
  induction n with
  | zero => simp [lowSum]
  | succ n ih =>
    have hb : (bitAt s n).toNat ≤ 1 := by cases bitAt s n <;> simp
    have := Nat.mul_le_mul_right (2 ^ n) hb
    simp only [lowSum, pow_succ]
    omega

theorem testBit_val (s : BitSeq) (i : Nat) : (val s).testBit i = bitAt s i := by
  induction s with
  | nil => simp [val, bitAt_nil]
  | cons b t ih =>
    have ht := val_lt_two_pow t
    rw [bitAt_cons, val, Nat.mul_comm, Nat.testBit_two_pow_mul_add _ ht]
    rcases Nat.lt_trichotomy i t.length with h | h | h
    · simp [h, Nat.ne_of_lt h, ih]
    · cases b <;> simp [h]
    · have h' : ¬ i < t.length := by omega
      have hne : i ≠ t.length := by omega
      have hk : i - t.length ≠ 0 := by omega
      have h1 : Nat.testBit 1 (i - t.length) = false := Nat.testBit_lt_two_pow (Nat.one_lt_two_pow hk)
      rw [bitAt_of_length_le (Nat.le_of_lt h)]
      cases b <;> simp [h', hne, h1]

/-- Sequences of one length are determined by their values. -/
theorem eq_of_val_eq {s t : BitSeq} (hl : s.length = t.length) (h : val s = val t) : s = t :=
  eq_of_bitAt_eq hl fun i _ => by rw [← testBit_val, ← testBit_val, h]

theorem val_append (s t : BitSeq) : val (s ++ t) = val s * 2 ^ t.length + val t := by
  induction s with
  | nil => simp [val]
  | cons b s ih =>
    simp only [List.cons_append, val, ih, List.length_append, pow_add]
    ring

/-! ## Normalization -/

theorem norm_ne_nil {s : BitSeq} (h : s ≠ []) : normSeq s ≠ [] := by
  induction s using normSeq.induct with
  | case1 b t ih => simpa [normSeq] using ih (by simp)
  | case2 s hs => unfold normSeq; split <;> simp_all

theorem val_norm (s : BitSeq) : val (normSeq s) = val s := by
  induction s using normSeq.induct with
  | case1 b t ih => rw [normSeq, ih]; simp [val]
  | case2 s hs => unfold normSeq; split <;> simp_all

theorem norm_idem (s : BitSeq) : normSeq (normSeq s) = normSeq s := by
  induction s using normSeq.induct with
  | case1 b t ih => rw [normSeq, ih]
  | case2 s hs =>
    have : normSeq s = s := by
      unfold normSeq; split <;> simp_all
    rw [this, this]

theorem length_norm_le (s : BitSeq) : (normSeq s).length ≤ s.length := by
  induction s using normSeq.induct with
  | case1 b t ih => rw [normSeq]; simp only [List.length_cons] at *; omega
  | case2 s hs => unfold normSeq; split <;> simp_all

/-- A sequence is normalized when it is one digit long or begins with 1. -/
theorem norm_eq_self_iff (b : Bit) (t : BitSeq) : normSeq (b :: t) = b :: t ↔ t = [] ∨ b = true := by
  cases b with
  | true => simp [normSeq]
  | false =>
    cases t with
    | nil => simp [normSeq]
    | cons b' t' =>
      have hle := length_norm_le (b' :: t')
      constructor
      · intro h
        rw [normSeq] at h
        rw [h] at hle
        simp at hle
      · simp

theorem normalized_norm {s : BitSeq} (h : s ≠ []) : Normalized (normSeq s) :=
  ⟨norm_ne_nil h, norm_idem s⟩

/-- A normalized sequence of two or more digits is at least `2^(length - 1)` (43_compare.md R123). -/
theorem two_pow_le_of_normalized {s : BitSeq} (h : Normalized s) (hl : 2 ≤ s.length) :
    2 ^ (s.length - 1) ≤ val s := by
  obtain ⟨hne, hn⟩ := h
  cases s with
  | nil => exact absurd rfl hne
  | cons b t =>
    rcases (norm_eq_self_iff b t).mp hn with h | h
    · simp [h] at hl
    · simp [val, h]

/-- Normalized sequences of equal value are equal. -/
theorem normalized_eq_of_val_eq {s t : BitSeq} (hs : Normalized s) (ht : Normalized t)
    (h : val s = val t) : s = t := by
  have key : ∀ {u v : BitSeq}, Normalized u → Normalized v → val u = val v →
      ¬ u.length < v.length := by
    intro u v hu hv huv hlt
    have h1 := two_pow_le_of_normalized hv (by
      have := List.length_pos_of_ne_nil hu.1
      omega)
    have h2 := val_lt_two_pow u
    have h3 : 2 ^ u.length ≤ 2 ^ (v.length - 1) := Nat.pow_le_pow_right (by omega) (by omega)
    omega
  have h1 := key hs ht h
  have h2 := key ht hs h.symm
  exact eq_of_val_eq (by omega) h

/-! ## Buses -/

theorem busOfSeq_eq_val (s : BitSeq) : busOfSeq s = val s := by
  have key : ∀ (s : BitSeq) (n : Nat),
      s.foldl (fun v b => 2 * v + b.toNat) n = n * 2 ^ s.length + val s := by
    intro s
    induction s with
    | nil => intro n; simp [val]
    | cons b t ih =>
      intro n
      rw [List.foldl_cons, ih]
      simp only [val, List.length_cons, pow_succ]
      ring
  simpa [busOfSeq] using key s 0

@[simp] theorem length_seqOfBus (v m : Nat) : (seqOfBus v m).length = m := by
  induction m with
  | zero => rfl
  | succ m ih => simp [seqOfBus, ih]

theorem bitAt_seqOfBus (v m i : Nat) : bitAt (seqOfBus v m) i = (decide (i < m) && v.testBit i) := by
  induction m with
  | zero => simp [seqOfBus, bitAt_nil]
  | succ m ih =>
    rw [seqOfBus, bitAt_cons, length_seqOfBus]
    by_cases h : i = m
    · simp [h]
    · have : (i < m + 1) ↔ i < m := by omega
      simp [h, ih, this]

theorem val_seqOfBus (v m : Nat) : val (seqOfBus v m) = v % 2 ^ m := by
  apply Nat.eq_of_testBit_eq
  intro i
  rw [testBit_val, bitAt_seqOfBus, Nat.testBit_mod_two_pow]

/-- Writing a sequence on a bus and reading it back at its length (30_encoding.md R56). -/
theorem seqOfBus_val (s : BitSeq) : seqOfBus (val s) s.length = s :=
  eq_of_val_eq (length_seqOfBus _ _) (by
    rw [val_seqOfBus, Nat.mod_eq_of_lt (val_lt_two_pow s)])

/-- Only the bus bits below the length are read (30_encoding.md R56). -/
theorem seqOfBus_congr {v w m : Nat} (h : ∀ j, j < m → v.testBit j = w.testBit j) :
    seqOfBus v m = seqOfBus w m := by
  induction m with
  | zero => rfl
  | succ m ih =>
    rw [seqOfBus, seqOfBus, h m (Nat.lt_succ_self m), ih fun j hj => h j (Nat.lt_succ_of_lt hj)]

end Sys2Proof.Machine
end

