-- ==== Sys2Proof/Laws/Cells.lean ====
section
/-! SUPPORT. The gates and cells as arithmetic, and what each ripple chain computes. -/

namespace Sys2Proof.Machine

/-! ## Gates and cells -/

theorem gateNot_eq (x : Bit) : gateNot x = !x := by cases x <;> rfl
theorem gateAnd_eq (x y : Bit) : gateAnd x y = (x && y) := by cases x <;> cases y <;> rfl
theorem gateOr_eq (x y : Bit) : gateOr x y = (x || y) := by cases x <;> cases y <;> rfl

/-- The composed form is native exclusive or (40_bitlogic.md R84). -/
theorem gateXor_eq (x y : Bit) : gateXor x y = (x ^^ y) := by cases x <;> cases y <;> rfl

/-- The adder cell adds three bits (41_cells.md R98, identity 1). -/
theorem adder_cell (x y c : Bit) :
    (sumBit x y c).toNat + 2 * (carryOut x y c).toNat = x.toNat + y.toNat + c.toNat := by
  cases x <;> cases y <;> cases c <;> rfl

/-- The subtractor cell, with the borrow on the left to stay in the naturals (R98, identity 2). -/
theorem subtractor_cell (x y b : Bit) :
    (diffBit x y b).toNat + y.toNat + b.toNat = x.toNat + 2 * (borrowOut x y b).toNat := by
  cases x <;> cases y <;> cases b <;> rfl

/-- R98, identity 3. -/
theorem lessSoFar_eq_borrowOut : lessSoFar = borrowOut := by
  funext x y l
  cases x <;> cases y <;> cases l <;> rfl

theorem sumBit_comm (x y c : Bit) : sumBit x y c = sumBit y x c := by
  cases x <;> cases y <;> cases c <;> rfl

theorem carryOut_comm (x y c : Bit) : carryOut x y c = carryOut y x c := by
  cases x <;> cases y <;> cases c <;> rfl

/-! ## Chains -/

@[simp] theorem chainState_zero (next : Bit → Bit → Bit → Bit) (a b : BitSeq) :
    chainState next a b 0 = false := rfl

theorem chainState_succ (next : Bit → Bit → Bit → Bit) (a b : BitSeq) (i : Nat) :
    chainState next a b (i + 1) = next (bitAt a i) (bitAt b i) (chainState next a b i) := rfl

@[simp] theorem length_chainBits (out next : Bit → Bit → Bit → Bit) (a b : BitSeq) (n : Nat) :
    (chainBits out next a b n).length = n := by
  induction n with
  | zero => rfl
  | succ n ih => simp [chainBits, ih]

theorem bitAt_chainBits (out next : Bit → Bit → Bit → Bit) (a b : BitSeq) {n i : Nat} (h : i < n) :
    bitAt (chainBits out next a b n) i = out (bitAt a i) (bitAt b i) (chainState next a b i) := by
  induction n with
  | zero => omega
  | succ n ih =>
    rw [chainBits, bitAt_cons, length_chainBits]
    by_cases hi : i = n
    · simp [hi]
    · simp [hi, ih (by omega)]

/-- The induction invariant of 42_ripple_add.md R113. -/
theorem sum_chain (a b : BitSeq) (n : Nat) :
    val (chainBits sumBit carryOut a b n) + (chainState carryOut a b n).toNat * 2 ^ n =
      lowSum a n + lowSum b n := by
  induction n with
  | zero => rfl
  | succ n ih =>
    have h := congrArg (· * 2 ^ n) (adder_cell (bitAt a n) (bitAt b n) (chainState carryOut a b n))
    simp only [add_mul] at h
    simp only [chainBits, val, length_chainBits, chainState_succ, lowSum, pow_succ]
    linarith

/-- The same invariant for the borrow chain. -/
theorem difference_chain (m n : BitSeq) (k : Nat) :
    val (chainBits diffBit borrowOut m n k) + lowSum n k =
      lowSum m k + (chainState borrowOut m n k).toNat * 2 ^ k := by
  induction k with
  | zero => rfl
  | succ k ih =>
    have h := congrArg (· * 2 ^ k) (subtractor_cell (bitAt m k) (bitAt n k) (chainState borrowOut m n k))
    simp only [add_mul] at h
    simp only [chainBits, val, length_chainBits, chainState_succ, lowSum, pow_succ]
    linarith

/-- The final borrow says which of the low parts is smaller. -/
theorem borrow_iff_lt (m n : BitSeq) (k : Nat) :
    chainState borrowOut m n k = true ↔ lowSum m k < lowSum n k := by
  have h := difference_chain m n k
  have h1 := val_lt_two_pow (chainBits diffBit borrowOut m n k)
  have h2 := lowSum_lt m k
  have h3 := lowSum_lt n k
  rw [length_chainBits] at h1
  cases hb : chainState borrowOut m n k <;> simp [hb] at h ⊢ <;> omega

theorem lowSum_width_left (a b : BitSeq) : lowSum a (width a b) = val a :=
  lowSum_of_length_le a (le_max_left _ _)

theorem lowSum_width_right (a b : BitSeq) : lowSum b (width a b) = val b :=
  lowSum_of_length_le b (le_max_right _ _)

/-- ADD's sequence: the sum digits and the final carry in front (R110). -/
theorem val_addSeq (a b : BitSeq) : val (addSeq a b) = val a + val b := by
  have h := sum_chain a b (width a b)
  rw [lowSum_width_left, lowSum_width_right] at h
  unfold addSeq finalCarry
  cases hc : chainState carryOut a b (width a b) <;> simp [hc, val] at h ⊢ <;> omega

theorem length_addSeq (a b : BitSeq) : (addSeq a b).length = width a b + (finalCarry a b).toNat := by
  unfold addSeq
  cases finalCarry a b <;> simp

theorem finalCarry_iff (a b : BitSeq) : finalCarry a b = true ↔ 2 ^ width a b ≤ val a + val b := by
  have h := sum_chain a b (width a b)
  have h1 := val_lt_two_pow (chainBits sumBit carryOut a b (width a b))
  rw [lowSum_width_left, lowSum_width_right] at h
  rw [length_chainBits] at h1
  unfold finalCarry
  cases hc : chainState carryOut a b (width a b) <;> simp [hc] at h ⊢ <;> omega

theorem val_rawDifference (m n : BitSeq) :
    val (rawDifference m n) + val n = val m + (finalBorrow m n).toNat * 2 ^ width m n := by
  have h := difference_chain m n (width m n)
  rwa [lowSum_width_left, lowSum_width_right] at h

theorem finalBorrow_iff (m n : BitSeq) : finalBorrow m n = true ↔ val m < val n := by
  have h := borrow_iff_lt m n (width m n)
  rwa [lowSum_width_left, lowSum_width_right] at h

@[simp] theorem length_rawDifference (m n : BitSeq) : (rawDifference m n).length = width m n :=
  length_chainBits _ _ _ _ _

/-- CMP at equal lengths is the order of the values (43_compare.md R123, case 1). -/
theorem compareSeqs_of_length_eq {a b : BitSeq} (h : a.length = b.length) :
    compareSeqs a b = .less ↔ val a < val b := by
  have hl := borrow_iff_lt a b a.length
  rw [lowSum_length, h, lowSum_length, ← h] at hl
  rw [compareSeqs, lessSoFar_eq_borrowOut, if_neg (not_not.mpr h), ← hl]
  cases chainState borrowOut a b a.length <;> simp

/-- CMP at different lengths is the order of the lengths (43_compare.md R122). -/
theorem compareSeqs_of_length_ne {a b : BitSeq} (h : a.length ≠ b.length) :
    compareSeqs a b = .less ↔ a.length < b.length := by
  unfold compareSeqs
  by_cases hl : a.length < b.length <;> simp [h, hl]

end Sys2Proof.Machine
end

