-- ==== Sys2Proof/Laws/State.lean ====
section
/-! SUPPORT. One lemma per field per update of State. -/

namespace Sys2Proof.Machine

@[simp] theorem State.present_cfg (s : State) (q : Request) : (s.present q).cfg = s.cfg := rfl
@[simp] theorem State.present_req (s : State) (q : Request) : (s.present q).req = q := rfl
@[simp] theorem State.present_rsp (s : State) (q : Request) : (s.present q).rsp = none := rfl

@[simp] theorem State.withRsp_cfg (s : State) (r : Response) : (s.withRsp r).cfg = s.cfg := rfl
@[simp] theorem State.withRsp_req (s : State) (r : Response) : (s.withRsp r).req = s.req := rfl
@[simp] theorem State.withRsp_rsp (s : State) (r : Response) : (s.withRsp r).rsp = some r := rfl

@[simp] theorem State.withRsp_withRsp (s : State) (r r' : Response) :
    (s.withRsp r).withRsp r' = s.withRsp r' := rfl

@[simp] theorem State.withFetchWord_cfg (s : State) (n w : Nat) : (s.withFetchWord n w).cfg = s.cfg := rfl
@[simp] theorem State.withFetchWord_req (s : State) (n w : Nat) :
    (s.withFetchWord n w).req = unpack s.cfg (w % 2 ^ n) := rfl
@[simp] theorem State.withFetchWord_rsp (s : State) (n w : Nat) : (s.withFetchWord n w).rsp = none := rfl

@[simp] theorem State.present_present (s : State) (q q' : Request) :
    (s.present q).present q' = s.present q' := rfl
@[simp] theorem State.withRsp_present (s : State) (r : Response) (q : Request) :
    (s.withRsp r).present q = s.present q := rfl

end Sys2Proof.Machine
end

