-- ==== Sys2Proof/Laws/Ops.lean ====
section
/-! SUPPORT. What each shared operation can do, said once. -/

namespace Sys2Proof.Machine

/-- Driving a response always ends in a next state (60_exceptions.md R140). -/
theorem drive_eq_next_iff (r : Response) (s t : State) : drive r s = .next t ↔ t = s.withRsp r := by
  simp [drive, eq_comm]

/-- The length checks pass exactly on legal operands (30_encoding.md R64). -/
theorem checkLengths_eq_none_iff (c : Config) (a b : BitSeq) :
    checkLengths c a b = none ↔ LegalOperands c a b := by
  unfold checkLengths
  split
  · rename_i h
    simp only [reduceCtorEq, false_iff]
    rintro ⟨⟨h1, -⟩, h2, -⟩
    omega
  · split
    · rename_i h1 h2
      simp only [reduceCtorEq, false_iff]
      rintro ⟨⟨-, h3⟩, -, h4⟩
      omega
    · rename_i h1 h2
      simp only [true_iff]
      exact ⟨⟨by omega, by omega⟩, by omega, by omega⟩

theorem illFormedOperands_eq_none_iff (c : Config) (a b : BitSeq) :
    illFormedOperands c a b = none ↔ LegalOperands c a b := by
  rw [← checkLengths_eq_none_iff]
  unfold illFormedOperands checkLengths
  split
  · simp
  · split <;> simp

/-- The checks do not tell the operands apart. -/
theorem checkLengths_comm (c : Config) (a b : BitSeq) : checkLengths c a b = checkLengths c b a := by
  unfold checkLengths
  simp only [or_comm]

/-- A sequence operation on legal operands drives its response. -/
theorem answerSequences_of_legal {a b : BitSeq} {s : State} (r : Response)
    (h : LegalOperands s.cfg a b) : answerSequences a b r s = .next (s.withRsp r) := by
  simp [answerSequences, (checkLengths_eq_none_iff _ _ _).mpr h, drive]

/-- All a sequence operation can do: answer legal operands, or refuse the others for the reason of the checks. -/
theorem answerSequences_cases (a b : BitSeq) (r : Response) (s : State) :
    (LegalOperands s.cfg a b ∧ answerSequences a b r s = .next (s.withRsp r)) ∨
    (¬ LegalOperands s.cfg a b ∧ ∃ why, checkLengths s.cfg a b = some why ∧
      answerSequences a b r s = .refused why) := by
  by_cases h : LegalOperands s.cfg a b
  · exact .inl ⟨h, answerSequences_of_legal r h⟩
  · refine .inr ⟨h, ?_⟩
    cases hc : checkLengths s.cfg a b with
    | none => exact absurd ((checkLengths_eq_none_iff _ _ _).mp hc) h
    | some why => exact ⟨why, rfl, by simp [answerSequences, hc]⟩

/-- A next state of a sequence operation is the state with the response driven. -/
theorem answerSequences_eq_next {a b : BitSeq} {r : Response} {s t : State}
    (h : answerSequences a b r s = .next t) : LegalOperands s.cfg a b ∧ t = s.withRsp r := by
  rcases answerSequences_cases a b r s with ⟨hl, he⟩ | ⟨-, why, -, he⟩
  · rw [he] at h; exact ⟨hl, by simpa using h.symm⟩
  · rw [he] at h; cases h

end Sys2Proof.Machine
end

