-- ==== Sys2Proof/Laws/PerInstr.lean ====
section
/-! SUPPORT. Facts made per constructor of Instr, about the instruction as syntax. -/

namespace Sys2Proof.Laws.FieldRoundTrip

open Sys2Proof.Machine

/-- Decoding the bus fields an instruction is written to gives the instruction back (30_encoding.md R53, R56,
R57). -/
def Statement (i : Instr) : Prop := decode (toRequest i) = i

theorem aSeq_seqRequest (op : BitVec 3) (a b : BitSeq) : (seqRequest op a b).aSeq = a := by
  simp [Request.aSeq, seqRequest, busOfSeq_eq_val, seqOfBus_val]

theorem bSeq_seqRequest (op : BitVec 3) (a b : BitSeq) : (seqRequest op a b).bSeq = b := by
  simp [Request.bSeq, seqRequest, busOfSeq_eq_val, seqOfBus_val]

theorem op_seqRequest (op : BitVec 3) (a b : BitSeq) : (seqRequest op a b).op = op := rfl

theorem add (a b : BitSeq) : Statement (.add a b) := by
  simp [Statement, toRequest, decode, op_seqRequest, aSeq_seqRequest, bSeq_seqRequest]
theorem sub (a b : BitSeq) : Statement (.sub a b) := by
  simp [Statement, toRequest, decode, op_seqRequest, aSeq_seqRequest, bSeq_seqRequest]
theorem cmp (a b : BitSeq) : Statement (.cmp a b) := by
  simp [Statement, toRequest, decode, op_seqRequest, aSeq_seqRequest, bSeq_seqRequest]
theorem fa (x y c : Bit) : Statement (.fa x y c) := by cases x <;> cases y <;> cases c <;> rfl
theorem fs (x y b : Bit) : Statement (.fs x y b) := by cases x <;> cases y <;> cases b <;> rfl
theorem lt (x y l : Bit) : Statement (.lt x y l) := by cases x <;> cases y <;> cases l <;> rfl
theorem reserved011 : Statement .reserved011 := rfl
theorem reserved111 : Statement .reserved111 := rfl

end Sys2Proof.Laws.FieldRoundTrip
end

