-- ==== Sys2Proof/Laws/Words.lean ====
section
/-! SUPPORT. Field widths and bit fields of a word (00_scope.md R8, R12; 30_encoding.md R54). -/

namespace Sys2Proof

theorem le_two_pow_clog2 (n : Nat) : n ≤ 2 ^ clog2 n := by
  unfold clog2
  split
  · omega
  · have := Nat.lt_log2_self (n := n - 1)
    omega

/-- A length field holds every length up to WMAX (R8). -/
theorem Config.lt_two_pow_lw (c : Config) {n : Nat} (h : n ≤ c.wmax) : n < 2 ^ c.lw := by
  have := le_two_pow_clog2 (c.wmax + 1)
  unfold Config.lw
  omega

/-- The result length field holds every length up to WMAX + 1 (R8). -/
theorem Config.lt_two_pow_lrw (c : Config) {n : Nat} (h : n ≤ c.wmax + 1) : n < 2 ^ c.lrw := by
  have := le_two_pow_clog2 (c.wmax + 2)
  unfold Config.lrw
  omega

/-- A field of a word is below its width. -/
theorem bits_lt (w lo width : Nat) : bits w lo width < 2 ^ width := Nat.mod_lt _ (by positivity)

/-- The field at the bottom of a word that was put together from a field and the rest. -/
theorem bits_bottom {x width : Nat} (rest : Nat) (h : x < 2 ^ width) :
    bits (x + rest * 2 ^ width) 0 width = x := by
  simp [bits, Nat.mod_eq_of_lt h]

/-- A field above the bottom one is a field of the rest. -/
theorem bits_above {x k : Nat} (rest lo width : Nat) (h : x < 2 ^ k) :
    bits (x + rest * 2 ^ k) (k + lo) width = bits rest lo width := by
  unfold bits
  rw [pow_add, ← Nat.div_div_eq_div_mul, Nat.add_mul_div_right _ _ (by positivity), Nat.div_eq_of_lt h,
    Nat.zero_add]

/-- A word is its bottom field and the rest. -/
theorem bits_split (w k : Nat) : bits w 0 k + w / 2 ^ k * 2 ^ k = w := by
  simp only [bits, pow_zero, Nat.div_one]
  rw [Nat.mul_comm]
  exact Nat.mod_add_div w (2 ^ k)

/-- A one-bit field is the bit. -/
theorem bits_one (w lo : Nat) : bits w lo 1 = (w.testBit lo).toNat := by
  rw [bits, Nat.testBit_eq_decide_div_mod_eq, pow_one]
  rcases Nat.mod_two_eq_zero_or_one (w / 2 ^ lo) with h | h <;> simp [h]

end Sys2Proof
end

