-- ==== Sys2Proof/Laws/Results.lean ====
section
/-! SUPPORT. One spec lemma per meaning: what it answers to legal operands. -/

namespace Sys2Proof.Machine

theorem width_comm (a b : BitSeq) : width a b = width b a := max_comm _ _

/-- Legal operands span at least one position. -/
theorem one_le_width {c : Config} {a b : BitSeq} (h : LegalOperands c a b) : 1 ≤ width a b :=
  le_trans h.1.1 (le_max_left _ _)

/-- Legal operands span at most WMAX positions. -/
theorem width_le_wmax {c : Config} {a b : BitSeq} (h : LegalOperands c a b) : width a b ≤ c.wmax :=
  max_le h.1.2 h.2.2

/-- ADD on legal operands, its fields written out (R110). -/
theorem exec_add_of_legal {s : State} {a b : BitSeq} (h : LegalOperands s.cfg a b) :
    exec (.add a b) s = .next (s.withRsp
      { r := val (addSeq a b), rLen := (addSeq a b).length, sign := false, less := false,
        sout := finalCarry a b }) := by
  rw [exec, execAdd, answerSequences_of_legal _ h]
  simp [sequenceResponse, busOfSeq_eq_val, Response.undriven]

/-- CMP on legal operands, its fields written out (R120). -/
theorem exec_cmp_of_legal {s : State} {a b : BitSeq} (h : LegalOperands s.cfg a b) :
    exec (.cmp a b) s = .next (s.withRsp
      { r := 0, rLen := 0, sign := false, less := lessBit (compareSeqs a b), sout := false }) := by
  rw [exec, execCmp, answerSequences_of_legal _ h]
  simp [Response.undriven]

/-- SUB on legal operands (R130). -/
theorem exec_sub_of_legal {s : State} {a b : BitSeq} (h : LegalOperands s.cfg a b) :
    exec (.sub a b) s = .next (s.withRsp (subResponse a b)) := by
  rw [exec, execSub, answerSequences_of_legal _ h]

/-- SUB's response, its fields written out for each result of the comparison (R130). -/
theorem subResponse_eq (a b : BitSeq) :
    subResponse a b =
      if compareSeqs a b = .less then
        { r := val (normSeq (rawDifference b a)), rLen := (normSeq (rawDifference b a)).length,
          sign := true, less := false, sout := finalBorrow b a }
      else
        { r := val (normSeq (rawDifference a b)), rLen := (normSeq (rawDifference a b)).length,
          sign := false, less := false, sout := finalBorrow a b } := by
  unfold subResponse orderOperands
  cases compareSeqs a b <;> simp [sequenceResponse, busOfSeq_eq_val, signBit, Response.undriven]

theorem rawDifference_ne_nil {m n : BitSeq} (h : 1 ≤ width m n) : rawDifference m n ≠ [] := by
  intro h0
  have := congrArg List.length h0
  rw [length_rawDifference] at this
  simp at this
  omega

theorem lessBit_eq_decide (r : ComparisonResult) : lessBit r = decide (r = .less) := by
  cases r <;> rfl

/-- Under the premise of R163 item 3, CMP's result is the order of the values (43_compare.md R123). -/
theorem compareSeqs_of_comparable {a b : BitSeq} (h : Comparable a b) :
    compareSeqs a b = .less ↔ val a < val b := by
  by_cases hl : a.length = b.length
  · exact compareSeqs_of_length_eq hl
  · have hn := h.resolve_right hl
    have key : ∀ {u v : BitSeq}, Normalized u → Normalized v → u.length < v.length → val u < val v := by
      intro u v hu hv hlt
      have h0 := List.length_pos_of_ne_nil hu.1
      have h1 := two_pow_le_of_normalized hv (by omega)
      have h2 := val_lt_two_pow u
      have h3 : 2 ^ u.length ≤ 2 ^ (v.length - 1) := Nat.pow_le_pow_right (by omega) (by omega)
      omega
    rw [compareSeqs_of_length_ne hl]
    refine ⟨key hn.1 hn.2, fun hv => ?_⟩
    by_contra hc
    have := key hn.2 hn.1 (by omega)
    omega

/-- A normalized sequence has as many digits as its value (R22). -/
theorem length_of_normalized {s : BitSeq} (h : Normalized s) : s.length = digits (val s) := by
  cases s with
  | nil => exact absurd rfl h.1
  | cons b t =>
    rcases (norm_eq_self_iff b t).mp h.2 with h2 | h2
    · subst h2; cases b <;> decide
    · subst h2
      have ht := val_lt_two_pow t
      have hv : val (true :: t) = 2 ^ t.length + val t := by simp [val]
      have hne : val (true :: t) ≠ 0 := by rw [hv]; positivity
      have hlog : (val (true :: t)).log2 = t.length := by
        rw [Nat.log2_eq_iff hne, hv, pow_succ]
        omega
      simp [digits, hne, hlog]

end Sys2Proof.Machine
end

