-- ==== Sys2Proof/Laws/Step.lean ====
section
/-! SUPPORT. What an evaluation can do, said once: decoding by operation code, and the two outcomes of exec. -/

namespace Sys2Proof.Machine

theorem op_cases (op : BitVec 3) :
    op = 0b000#3 ∨ op = 0b001#3 ∨ op = 0b010#3 ∨ op = 0b011#3 ∨
    op = 0b100#3 ∨ op = 0b101#3 ∨ op = 0b110#3 ∨ op = 0b111#3 := by
  revert op; decide

theorem decode_of_op000 {q : Request} (h : q.op = 0b000#3) : decode q = .add q.aSeq q.bSeq := by
  simp [decode, h]
theorem decode_of_op001 {q : Request} (h : q.op = 0b001#3) : decode q = .sub q.aSeq q.bSeq := by
  simp [decode, h]
theorem decode_of_op010 {q : Request} (h : q.op = 0b010#3) : decode q = .cmp q.aSeq q.bSeq := by
  simp [decode, h]
theorem decode_of_op011 {q : Request} (h : q.op = 0b011#3) : decode q = .reserved011 := by
  simp [decode, h]
theorem decode_of_op100 {q : Request} (h : q.op = 0b100#3) : decode q = .fa q.x q.y q.sin := by
  simp [decode, h]
theorem decode_of_op101 {q : Request} (h : q.op = 0b101#3) : decode q = .fs q.x q.y q.sin := by
  simp [decode, h]
theorem decode_of_op110 {q : Request} (h : q.op = 0b110#3) : decode q = .lt q.x q.y q.sin := by
  simp [decode, h]
theorem decode_of_op111 {q : Request} (h : q.op = 0b111#3) : decode q = .reserved111 := by
  simp [decode, h]

/-- All an instruction can do: drive a response, or be refused; and which of them, with which response or reason,
depends on WMAX alone among the fields of the state. -/
theorem exec_cases (i : Instr) (s : State) :
    (∃ r, ∀ t : State, t.cfg = s.cfg → exec i t = .next (t.withRsp r)) ∨
    (∃ why, ∀ t : State, t.cfg = s.cfg → exec i t = .refused why) := by
  have sequences : ∀ (a b : BitSeq) (r : Response),
      (∃ r', ∀ t : State, t.cfg = s.cfg → answerSequences a b r t = .next (t.withRsp r')) ∨
      (∃ why, ∀ t : State, t.cfg = s.cfg → answerSequences a b r t = .refused why) := by
    intro a b r
    cases h : checkLengths s.cfg a b with
    | none => exact .inl ⟨r, fun t ht => by simp [answerSequences, ht, h, drive]⟩
    | some why => exact .inr ⟨why, fun t ht => by simp [answerSequences, ht, h]⟩
  cases i with
  | add a b => exact sequences a b _
  | sub a b => exact sequences a b _
  | cmp a b => exact sequences a b _
  | fa x y c => exact .inl ⟨_, fun _ _ => rfl⟩
  | fs x y b => exact .inl ⟨_, fun _ _ => rfl⟩
  | lt x y l => exact .inl ⟨_, fun _ _ => rfl⟩
  | reserved011 => exact .inr ⟨_, fun _ _ => rfl⟩
  | reserved111 => exact .inr ⟨_, fun _ _ => rfl⟩

/-- Two evaluations of one decoded request on COREs of one WMAX are observed alike. -/
theorem observed_congr {s t : State} (hc : s.cfg = t.cfg) (hd : decode s.req = decode t.req) :
    s.observed = t.observed := by
  unfold State.observed step
  rw [hd]
  rcases exec_cases (decode t.req) s with ⟨r, h⟩ | ⟨why, h⟩
  · rw [h s rfl, h t hc.symm]; rfl
  · rw [h s rfl, h t hc.symm]

/-- All an evaluation can do: drive the response of the request on the port, or be refused. -/
theorem step_cases (s : State) :
    (∃ r, ∀ t : State, t.cfg = s.cfg → t.req = s.req → step t = .next (t.withRsp r)) ∨
    (∃ why, ∀ t : State, t.cfg = s.cfg → t.req = s.req → step t = .refused why) := by
  rcases exec_cases (decode s.req) s with ⟨r, h⟩ | ⟨why, h⟩
  · exact .inl ⟨r, fun t hc hq => by rw [step, hq, h t hc]⟩
  · exact .inr ⟨why, fun t hc hq => by rw [step, hq, h t hc]⟩

/-- A step that answers drives one response, and does so from every state of that WMAX and request. -/
theorem step_eq_next {s t : State} (h : step s = .next t) :
    ∃ r, t = s.withRsp r ∧ ∀ u : State, u.cfg = s.cfg → u.req = s.req → step u = .next (u.withRsp r) := by
  rcases step_cases s with ⟨r, hr⟩ | ⟨why, hw⟩
  · rw [hr s rfl rfl] at h
    exact ⟨r, by simpa using h.symm, hr⟩
  · rw [hw s rfl rfl] at h
    cases h

/-! ## Runs -/

theorem issueAll_nil (s : State) : s.issueAll [] = .next s := rfl

theorem issueAll_cons_of_next {s t : State} {q : Request} (h : s.issue q = .next t) (qs : List Request) :
    s.issueAll (q :: qs) = t.issueAll qs := by
  simp [State.issueAll, h]

theorem issueAll_cons_of_refused {s : State} {q : Request} {why : Refusal} (h : s.issue q = .refused why)
    (qs : List Request) : s.issueAll (q :: qs) = .refused why := by
  simp [State.issueAll, h]

/-- Issuing a request leaves WMAX as it was and the request on the port. -/
theorem issue_eq_next {s t : State} {q : Request} (h : s.issue q = .next t) : t.cfg = s.cfg ∧ t.req = q := by
  obtain ⟨r, rfl, -⟩ := step_eq_next h
  exact ⟨rfl, rfl⟩

end Sys2Proof.Machine
end

