-- ==== Sys2Proof/Tests/Slice0.lean ====
section
/-! SUPPORT. Tests on single steps, with expected values from 95_test_vectors.md and the worked examples of
the rules, and a witness for the hypotheses of every statement. -/

namespace Sys2Proof.Tests

open Sys2Proof.Machine

/-- A state of a CORE with the given WMAX whose port shows the given request. -/
def showing (wmax : Nat) (q : Request) : State := { State.reset with cfg := { wmax := wmax }, req := q }

/-- A state of the test vectors' CORE. -/
def at8 : State := showing 8 Request.idle

/-- The response word to a request word at WMAX = 8; none when the request is refused. -/
def answerWord (w : Nat) : Option Nat :=
  match step (at8.withFetchWord 28 w) with
  | .next t => t.rsp.map (packResponse t.cfg)
  | .refused _ => none

/-- The reason a request word is refused for at WMAX = 8, if it is. -/
def refusalOf (w : Nat) : Option Refusal :=
  match step (at8.withFetchWord 28 w) with
  | .next _ => none
  | .refused why => some why

/-! ## Decoding: words written out from 30_encoding.md R54, SIN B B_LEN A A_LEN OP from the top bit down -/

theorem test_decode_add :
    decodeWord Config.vectors 0b0_00000011_0010_00000101_0011_000 =
      .ok (.add [true, false, true] [true, true]) := by decide
theorem test_decode_sub :
    decodeWord Config.vectors 0b0_00001000_0100_00000001_0001_001 =
      .ok (.sub [true] [true, false, false, false]) := by decide
theorem test_decode_cmp :
    decodeWord Config.vectors 0b0_00000101_0011_00000011_0100_010 =
      .ok (.cmp [false, false, true, true] [true, false, true]) := by decide
theorem test_decode_fa :
    decodeWord Config.vectors 0b1_00000000_0001_00000001_0001_100 = .ok (.fa true false true) := by decide
theorem test_decode_fs :
    decodeWord Config.vectors 0b0_00000001_0001_00000000_0001_101 = .ok (.fs false true false) := by decide
theorem test_decode_lt :
    decodeWord Config.vectors 0b1_00000000_0001_00000001_0001_110 = .ok (.lt true false true) := by decide
theorem test_decode_reserved011 :
    decodeWord Config.vectors 0b0_00000001_0001_00000001_0001_011 = .ok .reserved011 := by decide
theorem test_decode_reserved111 :
    decodeWord Config.vectors 0b1_00000000_0001_00000001_0001_111 = .ok .reserved111 := by decide
theorem test_decode_too_wide : decodeWord Config.vectors (2 ^ 28) = .error .wordTooWide := by decide
theorem test_decode_table_word : decodeTableWord 8 0x4 = some (.fa false false false) := by decide

/-- REQ words of 95_test_vectors.md A3, S1, C4 and L1.7. -/
theorem test_encode :
    encode Config.vectors (.add [true, false, true] [true, true]) = 0x0190298 ∧
    encode Config.vectors (.sub [true, false, true] [true, true]) = 0x0190299 ∧
    encode Config.vectors (.cmp [true, false] [true, false, false]) = 0x0218112 ∧
    encode Config.vectors (.fa true true true) = 0x808808C := by decide

/-- R8 at the widths of 95_test_vectors.md: LW = LRW = 4, and REQ has 28 bits. -/
theorem test_widths : Config.vectors.lw = 4 ∧ Config.vectors.lrw = 4 ∧ Config.vectors.reqWidth = 28 := by
  decide

/-- R8 where WMAX + 1 and WMAX + 2 straddle a power of two. -/
theorem test_widths_at_seven : (Config.mk 7).lw = 3 ∧ (Config.mk 7).lrw = 4 := by decide

/-- R68: `add 101, 11`, and the literal 001 keeps its length. -/
theorem test_parse :
    parseLine ['a', 'd', 'd', ' ', '1', '0', '1', ',', ' ', '1', '1'] =
      some (.add [true, false, true] [true, true]) ∧
    parseLine ['c', 'm', 'p', ' ', '0', '0', '1', ',', ' ', '1', '0'] =
      some (.cmp [false, false, true] [true, false]) ∧
    parseLine ['f', 's', ' ', '0', ',', ' ', '1', ',', ' ', '0'] = some (.fs false true false) ∧
    parseLine ['a', 'd', 'd', ' ', ',', ' ', '1'] = none := by decide

/-! ## WellFormed refuses an ill-formed term for each check -/

theorem smoke_empty_left : ¬ (Instr.add [] [true]).WellFormed Config.vectors := by decide
theorem smoke_empty_right : (Instr.cmp [true] []).illFormed Config.vectors = some .emptyOperand := by decide
theorem smoke_too_long :
    (Instr.sub (List.replicate 9 true) [true]).illFormed Config.vectors = some .lengthOutOfRange := by decide
theorem smoke_empty_first :
    (Instr.sub (List.replicate 9 true) []).illFormed Config.vectors = some .emptyOperand := by decide
theorem smoke_longest_legal : (Instr.add (List.replicate 8 true) [false]).WellFormed Config.vectors := by
  decide
theorem smoke_reserved_not_legal : ¬ Instr.reserved011.Legal Config.vectors := by decide

/-! ## Responses: vectors of 95_test_vectors.md, at most two a operation -/

/-- A8 (the largest sum) and A10 (a kept leading zero). -/
theorem test_add_largest : answerWord 0x7FC7FC0 = some 0x93FE := by decide
theorem test_add_keeps_leading_zero : answerWord 0x0088098 = some 0x0602 := by decide
/-- C7 and C8 tell the fold orders of 90_conflicts.md C1 apart. -/
theorem test_cmp_fold_order : answerWord 0x029831A = some 0x0000 ∧ answerWord 0x029819A = some 0x4000 := by
  decide
/-- C11: by length, against the magnitudes. -/
theorem test_cmp_by_length : answerWord 0x011009A = some 0x0000 := by decide
/-- S11 (wrap-around, swapped) and S12 (zero with sign NEGATIVE). -/
theorem test_sub_wraps : answerWord 0x0098111 = some 0xA607 := by decide
theorem test_sub_negative_zero : answerWord 0x0090089 = some 0x2200 := by decide
/-- Rows 011 and 111 of FA, with the ignored fields of the second at other values (part 2.2). -/
theorem test_fa : answerWord 0x808800C = some 0x8200 ∧ answerWord 0x8080BAC = some 0x8201 := by decide
/-- Rows 010 and 100 of FS: the cell is not symmetric in x and y. -/
theorem test_fs : answerWord 0x008800D = some 0x8201 ∧ answerWord 0x000808D = some 0x0201 := by decide
/-- Rows 101 and 111 of LT. -/
theorem test_lt : answerWord 0x800808E = some 0x0000 ∧ answerWord 0x808808E = some 0x8000 := by decide
/-- Part 2.8: SIN and every bus bit above the lengths set; as A3. -/
theorem test_ignored_inputs : answerWord 0xFF97E98 = some 0x8808 := by decide
/-- X1 to X6 of part 2.7. -/
theorem test_refusals :
    refusalOf 0x008808B = some .reservedOp ∧ refusalOf 0x800808F = some .reservedOp ∧
    refusalOf 0x0088000 = some .emptyOperand ∧ refusalOf 0x000008A = some .emptyOperand ∧
    refusalOf 0x00880C9 = some .lengthOutOfRange ∧ refusalOf 0x0088003 = some .reservedOp := by decide

/-- From reset with nothing presented the idle port is an ADD of two empty operands (log entries 3 and 5). -/
theorem test_step_from_reset : step State.reset = .refused .emptyOperand := rfl

/-! ## Witnesses: concrete states and operands that meet the hypotheses of each statement

The names end in the statement's name. `one`, `five` and so on are sequences. -/

def zero : BitSeq := [false]
def one : BitSeq := [true]
def three : BitSeq := [true, true]
def five : BitSeq := [true, false, true]
def six : BitSeq := [true, true, false]
/-- The value 1 with two leading zeros. -/
def paddedOne : BitSeq := [false, false, true]
/-- The value 2. -/
def two : BitSeq := [true, false]

theorem witness_SequenceValueIsWeightedSum : 2 < five.length ∧ five.length ≤ 3 := by decide
theorem witness_NormStripsLeadingZeros :
    zero ≠ [] ∧ ([false, true, false] : BitSeq) ≠ [] ∧ 2 ≤ (normSeq [false, true, false]).length := by decide
theorem witness_LessSoFarDecidesOrPasses :
    (∃ x y : Bit, x = false ∧ y = true) ∧ (∃ x y : Bit, x = true ∧ y = false) ∧ (∃ x y : Bit, x = y) := by
  decide

/-- Operands of length 1 and of length WMAX are both legal: the boundaries of R64. -/
theorem witness_LegalOperands :
    LegalOperands at8.cfg one (List.replicate 8 true) ∧ LegalOperands (showing 1 Request.idle).cfg one zero := by
  decide
/-- The hypothesis of the clause that a chain operation refuses the rest. -/
theorem witness_NotLegalOperands :
    ¬ LegalOperands at8.cfg [] one ∧ ¬ LegalOperands at8.cfg one (List.replicate 9 true) := by decide
/-- A port that shows each operation code. -/
theorem witness_OperationMap :
    (showing 8 (toRequest (.add one one))).req.op = 0b000#3 ∧
    (showing 8 (toRequest (.sub one one))).req.op = 0b001#3 ∧
    (showing 8 (toRequest (.cmp one one))).req.op = 0b010#3 ∧
    (showing 8 (toRequest .reserved011)).req.op = 0b011#3 ∧
    (showing 8 (toRequest (.fa true true true))).req.op = 0b100#3 ∧
    (showing 8 (toRequest (.fs true true true))).req.op = 0b101#3 ∧
    (showing 8 (toRequest (.lt true true true))).req.op = 0b110#3 ∧
    (showing 8 (toRequest .reserved111)).req.op = 0b111#3 := by decide

theorem witness_FaAnswersFullAdderCell :
    (showing 8 (toRequest (.fa true true true))).req.op = 0b100#3 := rfl
theorem witness_FsAnswersFullSubtractorCell :
    (showing 8 (toRequest (.fs true true true))).req.op = 0b101#3 := rfl
theorem witness_LtAnswersOnSout :
    (showing 8 (toRequest (.lt true true true))).req.op = 0b110#3 := rfl
theorem witness_AddIsRippleCarryChain :
    LegalOperands at8.cfg five three ∧ 2 < max five.length three.length ∧
    ¬ LegalOperands at8.cfg [] one ∧ (showing 8 (toRequest (.add one one))).req.op = 0b000#3 := by decide
theorem witness_AddAnswersExactSum :
    LegalOperands at8.cfg (List.replicate 8 true) one ∧ 2 ^ 8 ≤ val (List.replicate 8 true) + val one := by decide
theorem witness_AddResultWidth :
    LegalOperands at8.cfg (List.replicate 8 true) one ∧
    finalCarry (List.replicate 8 true) one = true := by decide
/-- Each clause of R115: a final carry, none, a leading zero from either operand, and normalized operands. -/
theorem witness_AddLeadingZeros :
    1 ≤ 8 ∧ 8 ≤ at8.cfg.wmax ∧ 1 ≤ (showing 1 Request.idle).cfg.wmax ∧
    (LegalOperands at8.cfg five three ∧ finalCarry five three = true ∧ Normalized five ∧ Normalized three) ∧
    (LegalOperands at8.cfg paddedOne one ∧ finalCarry paddedOne one = false ∧
      ¬ Normalized (addSeq paddedOne one) ∧ one.length ≤ paddedOne.length) ∧
    (¬ Normalized (addSeq one paddedOne) ∧ one.length ≤ paddedOne.length) := by decide
theorem witness_AddSelfAppendsZero :
    LegalLength at8.cfg five ∧ Normalized five ∧ five ≠ [false] ∧ LegalLength at8.cfg zero ∧ zero = [false] := by
  decide
theorem witness_AddIsChainOfFaCells :
    LegalOperands at8.cfg five three ∧ 1 + 1 < max five.length three.length ∧
    LegalOperands at8.cfg one one ∧ 0 < max one.length one.length := by decide
theorem witness_CmpIsLengthTestThenFold :
    LegalOperands at8.cfg five six ∧ 2 < five.length ∧ ¬ LegalOperands at8.cfg one [] ∧
    (showing 8 (toRequest (.cmp one one))).req.op = 0b010#3 := by decide
theorem witness_CmpDecidedByTopDifference :
    LegalOperands at8.cfg five six ∧ five.length = six.length ∧ LegalOperands at8.cfg one zero := by decide
theorem witness_CmpByLengthReadsNoBit :
    LegalOperands at8.cfg paddedOne two ∧ paddedOne.length ≠ two.length ∧
    five.length = paddedOne.length ∧ three.length = two.length ∧
    ¬ (paddedOne.length < two.length ↔ val paddedOne < val two) := by decide
theorem witness_CmpComparesMagnitudes :
    (LegalOperands at8.cfg five six ∧ five.length = six.length) ∧
    (LegalOperands at8.cfg two five ∧ two.length ≠ five.length ∧ Normalized two ∧ Normalized five) ∧
    3 ≤ (showing 3 Request.idle).cfg.wmax := by decide
theorem witness_CmpHasNoEqual :
    LegalLength at8.cfg five ∧
    (LegalOperands at8.cfg five five ∧ Comparable five five ∧ val five = val five) ∧
    (LegalOperands at8.cfg five two ∧ Comparable five two ∧ val two < val five) := by decide
theorem witness_SubIsCompareSwapRippleNorm :
    LegalOperands at8.cfg three five ∧ 2 < max three.length five.length ∧
    ¬ LegalOperands at8.cfg one (List.replicate 9 true) ∧
    (showing 8 (toRequest (.sub one one))).req.op = 0b001#3 := by decide
theorem witness_SubSignIsCompare : LegalOperands at8.cfg five five ∧ five = five := by decide
/-- Both signs: S10 and S11 of 95_test_vectors.md; and operands that meet the premise of R163. -/
theorem witness_SubBorrowNotInMagnitude :
    (LegalOperands at8.cfg paddedOne two ∧ (subResponse paddedOne two).sign = false) ∧
    (LegalOperands at8.cfg two paddedOne ∧ (subResponse two paddedOne).sign = true) ∧
    (LegalOperands at8.cfg five three ∧ Comparable five three) := by decide
theorem witness_SubMagnitudeIsNormalized :
    LegalOperands at8.cfg five three ∧ 2 ≤ (subResponse five three).rLen ∧
    (subResponse three five).sign = true := by decide
theorem witness_SubAnswersSignMagnitude :
    (LegalOperands at8.cfg five three ∧ Comparable five three) ∧
    (LegalOperands at8.cfg paddedOne six ∧ Comparable paddedOne six) := by decide
theorem witness_SubWrapsWhenLengthMisjudges :
    (LegalOperands at8.cfg paddedOne two ∧ two.length < paddedOne.length ∧ val paddedOne < val two) ∧
    (LegalOperands at8.cfg two paddedOne ∧ two.length < paddedOne.length ∧ val paddedOne < val two) ∧
    (LegalOperands at8.cfg five two ∧ two.length < five.length ∧ ¬ val five < val two) := by decide
theorem witness_SubThenAddRoundTrips :
    LegalOperands at8.cfg five three ∧ Normalized five ∧ Normalized three ∧ val three ≤ val five ∧
    Normalized two ∧ addSeq three two = five := by decide
theorem witness_SubSelfIsZero : LegalLength at8.cfg paddedOne ∧ LegalLength at8.cfg (List.replicate 8 true) := by
  decide

theorem witness_LengthFieldWidths : (Config.mk 1).Valid ∧ 1 ≤ (Config.mk 1).wmax ∧ 2 ≤ (Config.mk 1).wmax + 1 := by
  decide
/-- Every field at its largest value. -/
theorem witness_RequestFits :
    RequestFits Config.vectors { op := 7, aLen := 15, a := 255, bLen := 15, b := 255, sin := true } :=
  ⟨by decide, by decide, by decide, by decide⟩
theorem witness_RequestWordHoldsEveryField :
    RequestFits Config.vectors { op := 7, aLen := 15, a := 255, bLen := 15, b := 255, sin := true } ∧
    2 ^ 28 - 1 < 2 ^ (3 + 2 * Config.vectors.lw + 2 * Config.vectors.wmax + 1) :=
  ⟨witness_RequestFits, by decide⟩
/-- The response to A8, with R and R_LEN at their largest, and the response to C2, with LESS. -/
theorem witness_ResponseWordHoldsEveryField :
    ResponseFits Config.vectors { r := 510, rLen := 9, sign := false, less := false, sout := true } ∧
    ResponseFits Config.vectors { r := 0, rLen := 0, sign := false, less := true, sout := false } :=
  ⟨⟨by decide, by decide, by decide, by decide⟩, ⟨by decide, by decide, by decide, by decide⟩⟩
/-- A3 with the bus bits above both lengths changed. -/
theorem witness_SequenceOperandAssembly :
    IsSequenceOp (showing 8 (toRequest (.add five three))).req.op ∧
    (∀ j, j < 3 → Nat.testBit 0b11111101 j = Nat.testBit 0b101 j) ∧
    (∀ j, j < 2 → Nat.testBit 0b11111111 j = Nat.testBit 0b11 j) ∧
    (toRequest (.add five three)).aLen = 3 ∧ (toRequest (.add five three)).a = 0b101 ∧
    (toRequest (.add five three)).bLen = 2 ∧ (toRequest (.add five three)).b = 0b11 := by decide
/-- `fa 1, 1, 1` and the word of part 2.2 with other ignored fields, on COREs of different WMAX. -/
theorem witness_CellOperandAssembly :
    let q : Request := { op := 0b100#3, aLen := 5, a := 0b10111, bLen := 0, b := 1, sin := true }
    IsCellOp (toRequest (.fa true true true)).op ∧ q.op = (toRequest (.fa true true true)).op ∧
    q.a.testBit 0 = (toRequest (.fa true true true)).a.testBit 0 ∧
    q.b.testBit 0 = (toRequest (.fa true true true)).b.testBit 0 ∧
    q.sin = (toRequest (.fa true true true)).sin := by decide
theorem witness_SequenceOpsIgnoreSin :
    IsSequenceOp (toRequest (.add one one)).op ∧ IsSequenceOp (toRequest (.sub one one)).op ∧
    IsSequenceOp (toRequest (.cmp one one)).op := by decide
theorem witness_ResultAssembly :
    2 < five.length ∧ five.length ≤ 3 ∧ LegalOperands at8.cfg five three ∧
    (∃ t, exec (.cmp one zero) at8 = .next t ∧ t.rsp.isSome = true) ∧
    (∃ t, exec (.lt true true true) at8 = .next t ∧ t.rsp.isSome = true) :=
  ⟨by decide, by decide, by decide, ⟨_, rfl, rfl⟩, ⟨_, rfl, rfl⟩⟩
theorem witness_UndefinedFieldsAreZero :
    (∃ t, exec (.sub one zero) at8 = .next t) ∧ (∃ t, exec (.cmp one zero) at8 = .next t) ∧
    (∃ t, exec (.lt true true true) at8 = .next t) ∧ (∃ t, exec (.fa true true true) at8 = .next t) ∧
    (∃ t, exec (.fs true true true) at8 = .next t) :=
  ⟨⟨_, rfl⟩, ⟨_, rfl⟩, ⟨_, rfl⟩, ⟨_, rfl⟩, ⟨_, rfl⟩⟩
theorem witness_DecodeOfEncode :
    Config.vectors.Valid ∧ (Instr.add (List.replicate 8 true) zero).WellFormed Config.vectors ∧
    (Config.mk 1).Valid ∧ (Instr.fa true true true).WellFormed (Config.mk 1) := by decide
theorem witness_EncodedInstructionRuns :
    at8.cfg.Valid ∧ (Instr.sub three five).WellFormed at8.cfg ∧ Instr.reserved111.WellFormed at8.cfg := by decide
theorem witness_StepRunsDecodedRequest :
    decode (showing 8 (toRequest (.add five three))).req = .add five three := by decide
theorem witness_AssemblerLineRoundTrips :
    (Instr.add (List.replicate 8 true) zero).Legal Config.vectors ∧
    (Instr.lt true false true).Legal Config.vectors := by decide
theorem witness_LengthsAreChecked :
    (([] : BitSeq).length = 0) ∧
    (one.length ≠ 0 ∧ (List.replicate 9 true).length ≠ 0 ∧ at8.cfg.wmax < (List.replicate 9 true).length) ∧
    IsCellOp (showing 8 (toRequest (.lt true true true))).req.op := by decide
theorem witness_ReservedCodesRefused :
    (showing 8 (toRequest .reserved011)).req.op = 0b011#3 ∧
    (showing 8 (toRequest .reserved111)).req.op = 0b111#3 := by decide
theorem witness_LegalRequestsAnswered :
    (decode (showing 8 (toRequest (.sub five three))).req).Legal (showing 8 Request.idle).cfg := by decide
theorem witness_OnlyResponsePortChanges : ∃ t, exec (.add five three) at8 = .next t := ⟨_, rfl⟩
/-- Two states that differ in the response port only. -/
theorem witness_ResponseOfRequestAlone :
    (at8.withRsp Response.undriven).cfg = at8.cfg ∧ (at8.withRsp Response.undriven).req = at8.req ∧
    at8.withRsp Response.undriven ≠ at8 := by decide
theorem witness_EvaluationIsIdempotent :
    ∃ t, step (showing 8 (toRequest (.sub three five))) = .next t := ⟨_, rfl⟩
theorem witness_ResponseDoesNotDependOnWmax :
    (Instr.add five three).Legal (showing 3 Request.idle).cfg ∧ (Instr.add five three).Legal at8.cfg := by decide
theorem witness_StepKeepsInvariant :
    (showing 8 (toRequest (.add (List.replicate 8 true) one))).Inv ∧
    ∃ t, step (showing 8 (toRequest (.add (List.replicate 8 true) one))) = .next t :=
  ⟨⟨by decide, ⟨by decide, by decide, by decide, by decide⟩, (fun _ h => by cases h), (fun _ h => by cases h)⟩,
    ⟨_, rfl⟩⟩

/-- A state that holds a response meets the invariant too: the vector A2 after its evaluation. -/
theorem witness_Inv_with_response :
    ((showing 8 (toRequest (.add one one))).withRsp
      { r := 2, rLen := 2, sign := false, less := false, sout := true }).Inv :=
  ⟨by decide, ⟨by decide, by decide, by decide, by decide⟩,
    (fun _ h => by cases h; exact ⟨by decide, by decide, by decide, by decide⟩), (fun _ _ => rfl)⟩
theorem witness_PresentingKeepsInvariant :
    at8.Inv ∧ RequestFits at8.cfg (toRequest (.add five three)) :=
  ⟨⟨by decide, ⟨by decide, by decide, by decide, by decide⟩, (fun _ h => by cases h), (fun _ h => by cases h)⟩,
    ⟨by decide, by decide, by decide, by decide⟩⟩
/-- Steps 1 and 2 of program P1 answer in either order. -/
theorem witness_EarlierRequestsLeaveNoTrace :
    (∃ t, at8.issueAll [toRequest (.add five three), toRequest (.cmp two three)] = .next t) ∧
    [toRequest (.add five three), toRequest (.cmp two three)].Perm
      [toRequest (.cmp two three), toRequest (.add five three)] :=
  ⟨⟨_, rfl⟩, List.Perm.swap _ _ _⟩
/-- X1 after an answered request. -/
theorem witness_RefusedRunStaysRefused :
    (∃ t, at8.issueAll [toRequest (.add five three)] = .next t) ∧
    (at8.present (toRequest .reserved011)).observed = .error .reservedOp := ⟨⟨_, rfl⟩, rfl⟩
theorem witness_ResponseHeldOnlyForItsRequest :
    ∃ t, step (showing 8 (toRequest (.cmp zero one))) = .next t := ⟨_, rfl⟩

/-- R26: the LESS of an answered CMP (vector C2) does not stand with the next request. -/
theorem test_response_gone_with_next_request :
    (match at8.issue (toRequest (.cmp zero one)) with
    | .next t => (t.rsp.map Response.less, (t.present (toRequest (.add five three))).rsp)
    | .refused _ => (none, none)) = (some true, none) := by decide
theorem witness_ResetHoldsNothing : (at8.withRsp Response.undriven).cfg = State.reset.cfg := rfl

end Sys2Proof.Tests
end

section
/-! Scope (00_scope.md): the value of a sequence, the widths of the length fields, and the independence of
responses from WMAX. -/

namespace Sys2Proof.Machine

/-! ## The value of a sequence (R10, R11) -/

/-- R10's read below the length: position 0 is the last element of the list. -/
theorem bitAt_of_lt_length {s : BitSeq} {i : Nat} (h : i < s.length) :
    bitAt s i = s[s.length - 1 - i] := by
  rw [bitAt, if_pos h, List.getD_eq_getElem]

/-- The partial sums of the laws, in the form of R11. -/
theorem lowSum_eq_sum_range (s : BitSeq) (n : Nat) :
    lowSum s n = ∑ i ∈ Finset.range n, (bitAt s i).toNat * 2 ^ i := by
  induction n with
  | zero => rfl
  | succ n ih => rw [lowSum, ih, Finset.sum_range_succ]

/-- Settles O1: the value is the partial sum over all positions below the length. -/
theorem sequenceValueIsWeightedSum : Obligations.SequenceValueIsWeightedSum := by
  intro s
  refine ⟨?_, fun _ h => bitAt_of_lt_length h, fun _ h => bitAt_of_length_le h⟩
  rw [← lowSum_eq_sum_range, lowSum_length]

/-! ## The length fields (R8) -/

/-- The model's `clog2` is the ceiling of the binary logarithm: `2 ^ clog2 n` reaches `n`, and no smaller
power does. -/
theorem clog2_eq_clog (n : Nat) : clog2 n = Nat.clog 2 n := by
  apply Nat.le_antisymm
  · unfold clog2
    split
    · exact Nat.zero_le _
    · have hpow : 2 ^ (n - 1).log2 < n := by
        have := Nat.log2_self_le (n := n - 1) (by omega)
        omega
      exact (Nat.lt_clog_iff_pow_lt Nat.one_lt_two).mpr hpow
  · exact Nat.clog_le_of_le_pow (le_two_pow_clog2 n)

/-- Settles O30: both widths are `clog2`, and the laws of the fields give the ranges. -/
theorem lengthFieldWidths : Obligations.LengthFieldWidths := by
  intro c _
  exact ⟨clog2_eq_clog _, clog2_eq_clog _, fun _ h => c.lt_two_pow_lw h, fun _ h => c.lt_two_pow_lrw h⟩

/-! ## WMAX and responses (R7) -/

/-- An instruction has one response, which every state whose WMAX admits the instruction answers: WMAX decides
whether a request is answered, never what the answer is. -/
theorem exists_response_of_legal (i : Instr) :
    ∃ r, ∀ s : State, i.Legal s.cfg → exec i s = .next (s.withRsp r) := by
  have operands : ∀ {c : Config} {a b : BitSeq}, illFormedOperands c a b = none → LegalOperands c a b :=
    (illFormedOperands_eq_none_iff _ _ _).mp
  cases i with
  | add a b => exact ⟨_, fun _ h => exec_add_of_legal (operands h.1)⟩
  | sub a b => exact ⟨_, fun _ h => exec_sub_of_legal (operands h.1)⟩
  | cmp a b => exact ⟨_, fun _ h => exec_cmp_of_legal (operands h.1)⟩
  | fa x y c => exact ⟨_, fun _ _ => rfl⟩
  | fs x y b => exact ⟨_, fun _ _ => rfl⟩
  | lt x y l => exact ⟨_, fun _ _ => rfl⟩
  | reserved011 => exact ⟨Response.undriven, fun _ h => absurd h.2 (by decide)⟩
  | reserved111 => exact ⟨Response.undriven, fun _ h => absurd h.2 (by decide)⟩

/-- Settles O55: the one response of the instruction is what both states answer. -/
theorem responseDoesNotDependOnWmax : Obligations.ResponseDoesNotDependOnWmax := by
  intro s t i hs ht
  obtain ⟨r, hr⟩ := exists_response_of_legal i
  exact ⟨r, hr s hs, hr t ht⟩

end Sys2Proof.Machine
end

section
/-! State (10_state.md): normalization, the frame of an evaluation, the invariant of the ports, and power-up. -/

namespace Sys2Proof.Machine

/-! ## Normalization (R23) -/

/-- Normalization removes nothing but leading zeros. -/
theorem exists_eq_replicate_append_norm (s : BitSeq) : ∃ k, s = List.replicate k false ++ normSeq s := by
  induction s using normSeq.induct with
  | case1 b t ih =>
    obtain ⟨k, hk⟩ := ih
    refine ⟨k + 1, ?_⟩
    rw [normSeq, List.replicate_succ, List.cons_append, ← hk]
  | case2 s hs =>
    have hself : normSeq s = s := by
      unfold normSeq
      split
      · exact absurd rfl (hs _ _)
      · rfl
    exact ⟨0, by rw [hself]; rfl⟩

/-- A normalized sequence of two or more digits begins with 1. -/
theorem head?_of_normalized {s : BitSeq} (h : Normalized s) (hl : 2 ≤ s.length) : s.head? = some true := by
  obtain ⟨hne, hself⟩ := h
  cases s with
  | nil => exact absurd rfl hne
  | cons b t =>
    rcases (norm_eq_self_iff b t).mp hself with rfl | rfl
    · simp at hl
    · rfl

/-- `[0]` is the one normal form of the value 0. -/
theorem norm_eq_zero_iff {s : BitSeq} (h : s ≠ []) : normSeq s = [false] ↔ val s = 0 := by
  constructor
  · intro hz
    rw [← val_norm s, hz]
    rfl
  · intro hv
    refine normalized_eq_of_val_eq (normalized_norm h) ⟨by decide, rfl⟩ ?_
    rw [val_norm, hv]
    rfl

/-- Settles O2: the zeros by induction along `normSeq`, the rest from the normal form being normalized and of the
same value. -/
theorem normStripsLeadingZeros : Obligations.NormStripsLeadingZeros := by
  intro s hs
  have hn : Normalized (normSeq s) := normalized_norm hs
  exact ⟨exists_eq_replicate_append_norm s, head?_of_normalized hn, val_norm s,
    List.length_pos_of_ne_nil hn.1, norm_idem s, norm_eq_zero_iff hs⟩

/-! ## The frame of an evaluation (R26, R27, R30) -/

/-- An instruction that answers drives a response and changes nothing else. -/
theorem exec_eq_next {i : Instr} {s t : State} (h : exec i s = .next t) : ∃ r, t = s.withRsp r := by
  rcases exec_cases i s with ⟨r, hr⟩ | ⟨why, hw⟩
  · rw [hr s rfl] at h
    exact ⟨r, by simpa using h.symm⟩
  · rw [hw s rfl] at h
    cases h

/-- Settles O49: the next state is the state with a response driven. -/
theorem onlyResponsePortChanges : Obligations.OnlyResponsePortChanges := by
  intro s t i h
  obtain ⟨r, rfl⟩ := exec_eq_next h
  exact ⟨rfl, rfl, rfl⟩

/-- The Caller observes the response port of an evaluation that answers. -/
theorem observed_of_step_eq_next {s t : State} (h : step s = .next t) : s.observed = .ok t.rsp := by
  simp [State.observed, h]

/-- An evaluation does not read the response port. -/
theorem step_withRsp (s : State) (r : Response) : step (s.withRsp r) = step s := by
  rcases step_cases s with ⟨r', hr⟩ | ⟨why, hw⟩
  · rw [hr (s.withRsp r) rfl rfl, hr s rfl rfl, State.withRsp_withRsp]
  · rw [hw (s.withRsp r) rfl rfl, hw s rfl rfl]

/-- Settles O53: presenting clears the response port, and a step drives what every state of that WMAX and request,
so the freshly presented one too, answers. -/
theorem responseHeldOnlyForItsRequest : Obligations.ResponseHeldOnlyForItsRequest := by
  refine ⟨State.present_rsp, State.withFetchWord_rsp, ?_, step_withRsp⟩
  intro s t h
  obtain ⟨r, rfl, hr⟩ := step_eq_next h
  have fresh : step (s.present s.req) = .next ((s.present s.req).withRsp r) := hr _ rfl rfl
  exact ⟨r, rfl, observed_of_step_eq_next fresh⟩

/-! ## The invariant of the ports (R26, 30_encoding.md R54) -/

/-- With no response on its port, a state meets the invariant when WMAX is legal and the request fits. -/
theorem inv_of_rsp_eq_none {s : State} (hw : s.cfg.Valid) (hq : RequestFits s.cfg s.req) (hr : s.rsp = none) :
    s.Inv :=
  ⟨hw, hq, fun r h => by simp [hr] at h, fun r h => by simp [hr] at h⟩

theorem present_inv {s : State} {q : Request} (h : s.Inv) (hq : RequestFits s.cfg q) : (s.present q).Inv :=
  inv_of_rsp_eq_none h.wmax hq rfl

/-- Every field read from a word fits its width. -/
theorem requestFits_unpack (c : Config) (w : Nat) : RequestFits c (unpack c w) :=
  ⟨bits_lt _ _ _, bits_lt _ _ _, bits_lt _ _ _, bits_lt _ _ _⟩

/-- Settles O57: a word is presented as the request it unpacks to, whose fields fit. -/
theorem presentingKeepsInvariant : Obligations.PresentingKeepsInvariant :=
  ⟨fun _ _ => present_inv, fun s _ _ h => present_inv h (requestFits_unpack s.cfg _)⟩

/-! ## Power-up (R31, 70_reset_and_hazards.md R160, R161) -/

/-- Every line of the idle port at 0 fits a port of any WMAX. -/
theorem requestFits_idle (c : Config) : RequestFits c Request.idle :=
  ⟨Nat.two_pow_pos _, Nat.two_pow_pos _, Nat.two_pow_pos _, Nat.two_pow_pos _⟩

/-- Settles O58: WMAX is 8, the idle port fits, and no response is held. -/
theorem resetMeetsInvariant : Obligations.ResetMeetsInvariant :=
  inv_of_rsp_eq_none (by decide) (requestFits_idle _) rfl

/-- Settles O59: the outcome of a presented request depends on WMAX and the request alone. -/
theorem resetHoldsNothing : Obligations.ResetHoldsNothing :=
  ⟨rfl, fun a b => ⟨chainState_zero _ a b, chainState_zero _ a b, chainState_zero _ a b⟩,
    fun _ _ hc => observed_congr hc.symm rfl⟩

end Sys2Proof.Machine
end

section
/-! Memory (20_memory.md): a request evaluated again, and runs of requests in any order. -/

namespace Sys2Proof.Machine

/-! ## Evaluating again (R43) -/

/-- Settles O54: the state after an evaluation differs only in its response port, which an evaluation does not
read. -/
theorem evaluationIsIdempotent : Obligations.EvaluationIsIdempotent := by
  intro s t h
  obtain ⟨r, rfl, -⟩ := step_eq_next h
  rw [step_withRsp, h]

/-! ## Runs of requests (R45) -/

/-- Presenting a request keeps nothing but WMAX. -/
theorem present_eq_of_cfg_eq {s t : State} (h : t.cfg = s.cfg) (q : Request) : t.present q = s.present q := by
  simp [State.present, h]

theorem issue_eq_of_cfg_eq {s t : State} (h : t.cfg = s.cfg) (q : Request) : t.issue q = s.issue q := by
  rw [State.issue, State.issue, present_eq_of_cfg_eq h]

/-- A run is answered to its end when its first request is answered and the rest is, from the state after it. -/
theorem issueAll_cons_eq_next_iff {s t : State} {q : Request} {qs : List Request} :
    s.issueAll (q :: qs) = .next t ↔ ∃ u, s.issue q = .next u ∧ u.issueAll qs = .next t := by
  cases h : s.issue q with
  | next u => simp [issueAll_cons_of_next h]
  | fault f => cases f
  | refused why => simp [issueAll_cons_of_refused h]

/-- An answered run leaves WMAX as it was. -/
theorem cfg_of_issueAll_eq_next {s t : State} {qs : List Request} (h : s.issueAll qs = .next t) :
    t.cfg = s.cfg := by
  induction qs generalizing s with
  | nil =>
    cases h
    rfl
  | cons q qs ih =>
    obtain ⟨u, hq, hrest⟩ := issueAll_cons_eq_next_iff.mp h
    exact (ih hrest).trans (issue_eq_next hq).1

/-- A run is answered to its end exactly when each of its requests is answered when issued alone. -/
theorem exists_issueAll_eq_next_iff (s : State) (qs : List Request) :
    (∃ t, s.issueAll qs = .next t) ↔ ∀ q ∈ qs, ∃ t, s.issue q = .next t := by
  induction qs generalizing s with
  | nil => simp [issueAll_nil]
  | cons q qs ih =>
    have rest {u : State} (hu : s.issue q = .next u) :
        (∃ t, u.issueAll qs = .next t) ↔ ∀ p ∈ qs, ∃ t, s.issue p = .next t := by
      simp only [ih u, issue_eq_of_cfg_eq (issue_eq_next hu).1]
    rw [List.forall_mem_cons]
    constructor
    · rintro ⟨t, ht⟩
      obtain ⟨u, hu, hrest⟩ := issueAll_cons_eq_next_iff.mp ht
      exact ⟨⟨u, hu⟩, (rest hu).mp ⟨t, hrest⟩⟩
    · rintro ⟨⟨u, hu⟩, hall⟩
      obtain ⟨t, ht⟩ := (rest hu).mpr hall
      exact ⟨t, issueAll_cons_eq_next_iff.mpr ⟨u, hu, ht⟩⟩

/-- Settles O51: an answered run keeps WMAX, which is all that presenting a request keeps of the state; and that each
request of a list is answered alone does not depend on the order of the list. -/
theorem earlierRequestsLeaveNoTrace : Obligations.EarlierRequestsLeaveNoTrace := by
  refine ⟨fun s t qs q h => ?_, exists_issueAll_eq_next_iff, fun s t qs ps hperm h => ?_⟩
  · rw [present_eq_of_cfg_eq (cfg_of_issueAll_eq_next h)]
  · have alone := (exists_issueAll_eq_next_iff s qs).mp ⟨t, h⟩
    exact (exists_issueAll_eq_next_iff s ps).mpr fun q hq => alone q (hperm.mem_iff.mpr hq)

end Sys2Proof.Machine
end

section
/-! Encoding (30_encoding.md), words: a word as its fields laid side by side, for REQ and for RSP. -/

namespace Sys2Proof.Machine

/-! ## Fields side by side (R12, R54, R55)

A field is a value and its width; a list of fields begins with the field at the bottom of the word. -/

/-- The word made of the given fields, the first at the bottom. -/
def joinFields : List (Nat × Nat) → Nat
  | [] => 0
  | (x, k) :: fs => x + joinFields fs * 2 ^ k

/-- The fields of the given widths that stand in a word from bit `lo` up. -/
def cutFields (w lo : Nat) : List Nat → List (Nat × Nat)
  | [] => []
  | k :: ks => (bits w lo k, k) :: cutFields w (lo + k) ks

/-- Every value fits the width of its field. -/
abbrev FieldsFit (fs : List (Nat × Nat)) : Prop := ∀ f ∈ fs, f.1 < 2 ^ f.2

/-- A field of width `m + n` is a field of width `m` below one of width `n`. -/
theorem bits_add (w lo m n : Nat) : bits w lo (m + n) = bits w lo m + bits w (lo + m) n * 2 ^ m := by
  rw [bits, bits, bits, pow_add, Nat.mod_mul, pow_add, Nat.div_div_eq_div_mul, Nat.mul_comm (2 ^ m) (_ % _)]

/-- A word below `2 ^ n` is its lowest `n` bits. -/
theorem bits_zero_of_lt {w n : Nat} (h : w < 2 ^ n) : bits w 0 n = w := by
  rw [bits, pow_zero, Nat.div_one, Nat.mod_eq_of_lt h]

/-- Joining what was cut gives the cut part of the word back. -/
theorem joinFields_cutFields (w lo : Nat) (ks : List Nat) :
    joinFields (cutFields w lo ks) = bits w lo ks.sum := by
  induction ks generalizing lo with
  | nil => simp [cutFields, joinFields, bits, Nat.mod_one]
  | cons k ks ih => rw [cutFields, joinFields, ih, List.sum_cons, bits_add]

/-- The fields above the bottom one are the fields of the rest. -/
theorem cutFields_above {x k : Nat} (h : x < 2 ^ k) (rest lo : Nat) (ks : List Nat) :
    cutFields (x + rest * 2 ^ k) (k + lo) ks = cutFields rest lo ks := by
  induction ks generalizing lo with
  | nil => rfl
  | cons n ks ih => rw [cutFields, cutFields, bits_above rest lo n h, Nat.add_assoc, ih]

/-- Cutting what was joined gives the fields back. -/
theorem cutFields_joinFields {fs : List (Nat × Nat)} (h : FieldsFit fs) :
    cutFields (joinFields fs) 0 (fs.map Prod.snd) = fs := by
  induction fs with
  | nil => rfl
  | cons f fs ih =>
    obtain ⟨x, k⟩ := f
    obtain ⟨hx, hfs⟩ := List.forall_mem_cons.mp h
    rw [joinFields, List.map_cons, cutFields, bits_bottom _ hx, Nat.add_comm 0 k, cutFields_above hx, ih hfs]

/-- The word is as wide as its fields together. -/
theorem joinFields_lt {fs : List (Nat × Nat)} (h : FieldsFit fs) :
    joinFields fs < 2 ^ (fs.map Prod.snd).sum :=
  calc joinFields fs = bits (joinFields fs) 0 (fs.map Prod.snd).sum := by
        rw [← joinFields_cutFields, cutFields_joinFields h]
    _ < 2 ^ (fs.map Prod.snd).sum := bits_lt _ _ _

/-! ## The request word (R54) -/

/-- The fields of `REQ` from the bottom up: `OP`, `A_LEN`, `A`, `B_LEN`, `B`, `SIN`. -/
def requestFields (c : Config) (q : Request) : List (Nat × Nat) :=
  [(q.op.toNat, 3), (q.aLen, c.lw), (q.a, c.wmax), (q.bLen, c.lw), (q.b, c.wmax), (q.sin.toNat, 1)]

/-- The widths of the fields of `REQ`, in the same order. -/
def requestWidths (c : Config) : List Nat := [3, c.lw, c.wmax, c.lw, c.wmax, 1]

theorem map_snd_requestFields (c : Config) (q : Request) :
    (requestFields c q).map Prod.snd = requestWidths c := rfl

theorem sum_requestWidths (c : Config) : (requestWidths c).sum = c.reqWidth := by
  simp only [requestWidths, List.sum_cons, List.sum_nil, Config.reqWidth]
  ring

theorem pack_eq_joinFields (c : Config) (q : Request) : pack c q = joinFields (requestFields c q) := by
  simp only [pack, requestFields, joinFields, Config.posALen, Config.posA, Config.posBLen, Config.posB,
    Config.posSin]
  ring

theorem requestFields_unpack (c : Config) (w : Nat) :
    requestFields c (unpack c w) = cutFields w 0 (requestWidths c) := by
  have hA : 0 + 3 + c.lw = c.posA := by rw [Config.posA]; ring
  have hBLen : c.posA + c.wmax = c.posBLen := by rw [Config.posA, Config.posBLen]; ring
  have hB : c.posBLen + c.lw = c.posB := by rw [Config.posBLen, Config.posB]; ring
  have hSin : c.posB + c.wmax = c.posSin := by rw [Config.posB, Config.posSin]; ring
  have hop : (BitVec.ofNat 3 (bits w 0 3)).toNat = bits w 0 3 := by
    rw [BitVec.toNat_ofNat, Nat.mod_eq_of_lt (bits_lt w 0 3)]
  simp only [requestWidths, cutFields, hA, hBLen, hB, hSin, bits_one]
  rw [requestFields, unpack, hop, Config.posALen]

theorem requestFields_injective {c : Config} {q q' : Request} (h : requestFields c q = requestFields c q') :
    q = q' := by
  obtain ⟨op, aLen, a, bLen, b, sin⟩ := q
  obtain ⟨op', aLen', a', bLen', b', sin'⟩ := q'
  have hsin : Function.Injective Bool.toNat := Function.LeftInverse.injective Bool.ofNat_toNat
  simpa [requestFields, BitVec.toNat_inj, hsin.eq_iff] using h

theorem fieldsFit_requestFields {c : Config} {q : Request} (h : RequestFits c q) :
    FieldsFit (requestFields c q) := by
  simp [FieldsFit, requestFields, q.op.isLt, h.aLen, h.a, h.bLen, h.b, Bool.toNat_le]

theorem pack_lt {c : Config} {q : Request} (h : RequestFits c q) : pack c q < 2 ^ c.reqWidth := by
  rw [pack_eq_joinFields, ← sum_requestWidths]
  exact joinFields_lt (fieldsFit_requestFields h)

theorem unpack_pack {c : Config} {q : Request} (h : RequestFits c q) : unpack c (pack c q) = q := by
  apply requestFields_injective (c := c)
  rw [requestFields_unpack, pack_eq_joinFields, ← map_snd_requestFields c q,
    cutFields_joinFields (fieldsFit_requestFields h)]

theorem pack_unpack {c : Config} {w : Nat} (h : w < 2 ^ c.reqWidth) : pack c (unpack c w) = w := by
  rw [pack_eq_joinFields, requestFields_unpack, joinFields_cutFields, sum_requestWidths, bits_zero_of_lt h]

/-- Settles O32: packing joins the fields and unpacking cuts them, so the slices of a packed word are read off
`unpack (pack q) = q`. -/
theorem requestWordHoldsEveryField : Obligations.RequestWordHoldsEveryField := by
  refine ⟨fun c q h => ?_, fun c w h => ⟨requestFits_unpack c w, pack_unpack h⟩⟩
  have hq : unpack c (pack c q) = q := unpack_pack h
  have hop : bits (pack c q) 0 3 = q.op.toNat := by
    rw [← congrArg Request.op hq, unpack, BitVec.toNat_ofNat, Nat.mod_eq_of_lt (bits_lt _ _ _)]
  have hsin : bits (pack c q) c.posSin 1 = q.sin.toNat := by
    rw [bits_one, ← congrArg Request.sin hq, unpack]
  exact ⟨pack_lt h, hop, congrArg Request.aLen hq, congrArg Request.a hq, congrArg Request.bLen hq,
    congrArg Request.b hq, hsin, hq⟩

/-! ## The response word (R55) -/

/-- The fields of `RSP` from the bottom up: `R`, `R_LEN`, `SIGN`, `LESS`, `SOUT`. -/
def responseFields (c : Config) (r : Response) : List (Nat × Nat) :=
  [(r.r, c.wmax + 1), (r.rLen, c.lrw), (r.sign.toNat, 1), (r.less.toNat, 1), (r.sout.toNat, 1)]

theorem packResponse_eq_joinFields (c : Config) (r : Response) :
    packResponse c r = joinFields (responseFields c r) := by
  simp only [packResponse, responseFields, joinFields]
  ring

/-- A result whose length is at most WMAX + 1 fits the result bus. -/
theorem fieldsFit_responseFields {c : Config} {r : Response} (h : ResponseFits c r) :
    FieldsFit (responseFields c r) := by
  have hr : r.r < 2 ^ (c.wmax + 1) := h.result.trans_le (Nat.pow_le_pow_right (by decide) h.length)
  simp [FieldsFit, responseFields, hr, c.lt_two_pow_lrw h.length, Bool.toNat_le]

/-- Settles O33: cutting the joined fields gives them back, each at its position. -/
theorem responseWordHoldsEveryField : Obligations.ResponseWordHoldsEveryField := by
  intro c r h
  have hfit := fieldsFit_responseFields h
  have hlt := joinFields_lt hfit
  have hcut := cutFields_joinFields hfit
  rw [← packResponse_eq_joinFields] at hlt hcut
  have hsign : c.wmax + 1 + c.lrw = c.wmax + c.lrw + 1 := by ring
  have hwidth : ((responseFields c r).map Prod.snd).sum = c.wmax + c.lrw + 4 := by
    simp only [responseFields, List.map_cons, List.map_nil, List.sum_cons, List.sum_nil]
    ring
  rw [hwidth] at hlt
  simp only [responseFields, List.map_cons, List.map_nil, cutFields, Nat.zero_add, hsign, List.cons.injEq,
    Prod.mk.injEq, and_true] at hcut
  exact ⟨hlt, hcut⟩

end Sys2Proof.Machine
end

section
/-! Encoding (30_encoding.md), instructions: the operation map, operand assembly, and the round trips through the
request word and the assembler line. -/

namespace Sys2Proof.Machine

/-! ## The operation map (R53, R67) -/

/-- Settles O31: step is exec of the decoded request, and each code decodes to its operation. -/
theorem operationMap : Obligations.OperationMap := by
  intro s
  refine ⟨?_, ?_, ?_, ?_, ?_, ?_, ?_, ?_⟩ <;> intro h
  · rw [step, decode_of_op000 h]
  · rw [step, decode_of_op001 h]
  · rw [step, decode_of_op010 h]
  · rw [step, decode_of_op011 h, exec, execReserved011]
  · rw [step, decode_of_op100 h, Request.x, Request.y]
  · rw [step, decode_of_op101 h, Request.x, Request.y]
  · rw [step, decode_of_op110 h, Request.x, Request.y]
  · rw [step, decode_of_op111 h, exec, execReserved111]

/-- Settles O42: by the definition of step. -/
theorem stepRunsDecodedRequest : Obligations.StepRunsDecodedRequest := by
  rintro s _ rfl
  rfl

/-- Settles O43: the nine words, evaluated. -/
theorem testVectorWordsDecode : Obligations.TestVectorWordsDecode := by
  unfold Obligations.TestVectorWordsDecode
  decide

/-! ## Operand assembly (R56, R57, R58) -/

/-- A sequence operation is decoded from OP and the two assembled sequences alone. -/
theorem decode_congr_of_sequenceOp {q q' : Request} (h : IsSequenceOp q.op) (hop : q'.op = q.op)
    (ha : q'.aSeq = q.aSeq) (hb : q'.bSeq = q.bSeq) : decode q' = decode q := by
  rcases h with h | h | h
  · rw [decode_of_op000 h, decode_of_op000 (hop.trans h), ha, hb]
  · rw [decode_of_op001 h, decode_of_op001 (hop.trans h), ha, hb]
  · rw [decode_of_op010 h, decode_of_op010 (hop.trans h), ha, hb]

/-- A cell operation is decoded from OP, A[0], B[0] and SIN alone. -/
theorem decode_congr_of_cellOp {q q' : Request} (h : IsCellOp q.op) (hop : q'.op = q.op)
    (hx : q'.x = q.x) (hy : q'.y = q.y) (hsin : q'.sin = q.sin) : decode q' = decode q := by
  rcases h with h | h | h
  · rw [decode_of_op100 h, decode_of_op100 (hop.trans h), hx, hy, hsin]
  · rw [decode_of_op101 h, decode_of_op101 (hop.trans h), hx, hy, hsin]
  · rw [decode_of_op110 h, decode_of_op110 (hop.trans h), hx, hy, hsin]

/-- Settles O34: the assembled sequence reads the bus bits below its length, so the others do not reach the decoded
instruction. -/
theorem sequenceOperandAssembly : Obligations.SequenceOperandAssembly := by
  have bit (v m j : Nat) (h : j < m) : bitAt (seqOfBus v m) j = v.testBit j := by
    simp [bitAt_seqOfBus, h]
  refine ⟨fun q => ?_, fun s a b hop ha hb => ?_⟩
  · exact ⟨length_seqOfBus _ _, bit _ _, length_seqOfBus _ _, bit _ _, val_seqOfBus _ _, val_seqOfBus _ _⟩
  · exact observed_congr rfl (decode_congr_of_sequenceOp hop rfl (seqOfBus_congr ha) (seqOfBus_congr hb))

/-- Settles O36: SIN does not reach the decoded instruction. -/
theorem sequenceOpsIgnoreSin : Obligations.SequenceOpsIgnoreSin :=
  ⟨fun _ _ hop => observed_congr rfl (decode_congr_of_sequenceOp hop rfl rfl rfl), chainState_zero⟩

/-! ## The request word of an instruction (R54, R67) -/

theorem decode_toRequest (i : Instr) : decode (toRequest i) = i := by
  cases i with
  | add a b => exact Laws.FieldRoundTrip.add a b
  | sub a b => exact Laws.FieldRoundTrip.sub a b
  | cmp a b => exact Laws.FieldRoundTrip.cmp a b
  | fa x y c => exact Laws.FieldRoundTrip.fa x y c
  | fs x y b => exact Laws.FieldRoundTrip.fs x y b
  | lt x y l => exact Laws.FieldRoundTrip.lt x y l
  | reserved011 => exact Laws.FieldRoundTrip.reserved011
  | reserved111 => exact Laws.FieldRoundTrip.reserved111

/-- The value of a sequence of legal length fits the operand bus. -/
theorem busOfSeq_lt {c : Config} {s : BitSeq} (h : LegalLength c s) : busOfSeq s < 2 ^ c.wmax := by
  rw [busOfSeq_eq_val]
  exact (val_lt_two_pow s).trans_le (Nat.pow_le_pow_right (by decide) h.2)

theorem requestFits_seqRequest {c : Config} {a b : BitSeq} (h : LegalOperands c a b) (op : BitVec 3) :
    RequestFits c (seqRequest op a b) :=
  ⟨c.lt_two_pow_lw h.1.2, busOfSeq_lt h.1, c.lt_two_pow_lw h.2.2, busOfSeq_lt h.2⟩

theorem requestFits_cellRequest {c : Config} (h : c.Valid) (op : BitVec 3) (x y s : Bit) :
    RequestFits c (cellRequest op x y s) := by
  have bit (v : Bit) : v.toNat < 2 ^ c.wmax := (Bool.toNat_le v).trans_lt (Nat.one_lt_two_pow (by omega))
  exact ⟨c.lt_two_pow_lw h, bit x, c.lt_two_pow_lw h, bit y⟩

theorem requestFits_reservedRequest (c : Config) (op : BitVec 3) : RequestFits c (reservedRequest op) :=
  ⟨Nat.two_pow_pos _, Nat.two_pow_pos _, Nat.two_pow_pos _, Nat.two_pow_pos _⟩

/-- The fields of a well-formed instruction fit the port. -/
theorem requestFits_toRequest {c : Config} {i : Instr} (hc : c.Valid) (hi : i.WellFormed c) :
    RequestFits c (toRequest i) := by
  cases i with
  | add a b => exact requestFits_seqRequest ((illFormedOperands_eq_none_iff c a b).mp hi) _
  | sub a b => exact requestFits_seqRequest ((illFormedOperands_eq_none_iff c a b).mp hi) _
  | cmp a b => exact requestFits_seqRequest ((illFormedOperands_eq_none_iff c a b).mp hi) _
  | fa x y z => exact requestFits_cellRequest hc _ x y z
  | fs x y z => exact requestFits_cellRequest hc _ x y z
  | lt x y z => exact requestFits_cellRequest hc _ x y z
  | reserved011 => exact requestFits_reservedRequest c _
  | reserved111 => exact requestFits_reservedRequest c _

/-- Settles O40: the word is as wide as REQ, and its fields are those the instruction was written to. -/
theorem decodeOfEncode : Obligations.DecodeOfEncode := by
  intro c i hc hi
  have hfit : RequestFits c (toRequest i) := requestFits_toRequest hc hi
  rw [decodeWord, encode, if_pos (pack_lt hfit), unpack_pack hfit, decode_toRequest]

/-- Settles O41: driving the word leaves the fields of the instruction on the port, which decode to it. -/
theorem encodedInstructionRuns : Obligations.EncodedInstructionRuns := by
  intro s i hc hi
  have hfit : RequestFits s.cfg (toRequest i) := requestFits_toRequest hc hi
  have hreq : (s.withFetchWord s.cfg.reqWidth (encode s.cfg i)).req = toRequest i := by
    rw [State.withFetchWord_req, encode, Nat.mod_eq_of_lt (pack_lt hfit), unpack_pack hfit]
  exact ⟨hreq, stepRunsDecodedRequest _ i (by rw [hreq, decode_toRequest])⟩

/-! ## Assembler lines (R68, R70) -/

theorem bitOfChar_charOfBit (b : Bit) : bitOfChar (charOfBit b) = some b := by cases b <;> rfl

theorem bitsOfChars_literalOfSeq (s : BitSeq) : bitsOfChars (literalOfSeq s) = some s := by
  induction s with
  | nil => rfl
  | cons b t ih =>
    rw [literalOfSeq] at ih ⊢
    rw [List.map_cons, bitsOfChars, bitOfChar_charOfBit, ih]

/-- A non-empty sequence is read from its literal, leading zeros included. -/
theorem seqOfLiteral_literalOfSeq {s : BitSeq} (h : s ≠ []) : seqOfLiteral (literalOfSeq s) = some s := by
  cases s with
  | nil => exact absurd rfl h
  | cons b t => rw [seqOfLiteral, bitsOfChars_literalOfSeq]

/-- No digit is a comma, so the text is split behind the whole literal. -/
theorem splitOperand_literalOfSeq (s : BitSeq) (rest : List Char) :
    splitOperand (literalOfSeq s ++ ',' :: ' ' :: rest) = some (literalOfSeq s, rest) := by
  induction s with
  | nil => rfl
  | cons b t ih =>
    rw [literalOfSeq] at ih ⊢
    cases b <;> simp [charOfBit, splitOperand, ih]

theorem parseSeqs_printSeqs {a b : BitSeq} (ha : a ≠ []) (hb : b ≠ []) :
    parseSeqs (printSeqs a b) = some (a, b) := by
  have hsplit : splitOperand (printSeqs a b) = some (literalOfSeq a, literalOfSeq b) := by
    simp [printSeqs, splitOperand_literalOfSeq]
  simp [parseSeqs, hsplit, seqOfLiteral_literalOfSeq ha, seqOfLiteral_literalOfSeq hb]

theorem parseBits_printBits (x y s : Bit) : parseBits (printBits x y s) = some (x, y, s) := by
  cases x <;> cases y <;> cases s <;> rfl

/-- The operands of a well-formed sequence instruction are not empty. -/
theorem ne_nil_of_illFormedOperands_eq_none {c : Config} {a b : BitSeq} (h : illFormedOperands c a b = none) :
    a ≠ [] ∧ b ≠ [] := by
  obtain ⟨⟨ha, -⟩, hb, -⟩ := (illFormedOperands_eq_none_iff c a b).mp h
  exact ⟨List.ne_nil_of_length_pos ha, List.ne_nil_of_length_pos hb⟩

/-- Settles O44: the mnemonic selects the operation, and its operand text is parsed back. -/
theorem assemblerLineRoundTrips : Obligations.AssemblerLineRoundTrips := by
  rintro c i ⟨hi, hres⟩
  have seqs {a b : BitSeq} (h : illFormedOperands c a b = none) : parseSeqs (printSeqs a b) = some (a, b) :=
    have ⟨ha, hb⟩ := ne_nil_of_illFormedOperands_eq_none h
    parseSeqs_printSeqs ha hb
  cases i with
  | add a b => exact ⟨_, rfl, by simp [parseLine, seqs hi]⟩
  | sub a b => exact ⟨_, rfl, by simp [parseLine, seqs hi]⟩
  | cmp a b => exact ⟨_, rfl, by simp [parseLine, seqs hi]⟩
  | fa x y c => exact ⟨_, rfl, by simp [parseLine, parseBits_printBits]⟩
  | fs x y b => exact ⟨_, rfl, by simp [parseLine, parseBits_printBits]⟩
  | lt x y l => exact ⟨_, rfl, by simp [parseLine, parseBits_printBits]⟩
  | reserved011 => cases hres
  | reserved111 => cases hres

end Sys2Proof.Machine
end

section
/-! Encoding (30_encoding.md), responses: what each operation drives, the checks of lengths, and the invariant of the
ports. -/

namespace Sys2Proof.Machine

/-! ## Which response an instruction drives (R59, R60, R67) -/

/-- The response to an instruction that is answered. A reserved code never is (R63). -/
def responseOf : Instr → Response
  | .add a b => sequenceResponse (addSeq a b) (finalCarry a b)
  | .sub a b => subResponse a b
  | .cmp a b => { Response.undriven with less := lessBit (compareSeqs a b) }
  | .fa x y c => sequenceResponse [sumBit x y c] (carryOut x y c)
  | .fs x y b => sequenceResponse [diffBit x y b] (borrowOut x y b)
  | .lt x y l => stateBitResponse (lessSoFar x y l)
  | .reserved011 => Response.undriven
  | .reserved111 => Response.undriven

theorem answerSequences_eq_next_iff {a b : BitSeq} {r : Response} {s t : State} :
    answerSequences a b r s = .next t ↔ LegalOperands s.cfg a b ∧ t = s.withRsp r :=
  ⟨answerSequences_eq_next, fun ⟨h, ht⟩ => by rw [answerSequences_of_legal r h, ht]⟩

/-- Exactly the legal instructions are answered, each with its response. -/
theorem exec_eq_next_iff {i : Instr} {s t : State} :
    exec i s = .next t ↔ i.Legal s.cfg ∧ t = s.withRsp (responseOf i) := by
  have sequences {a b : BitSeq} {r : Response} : answerSequences a b r s = .next t ↔
      (illFormedOperands s.cfg a b = none ∧ false = false) ∧ t = s.withRsp r := by
    rw [answerSequences_eq_next_iff, illFormedOperands_eq_none_iff, and_iff_left (rfl : false = false)]
  have cells {r : Response} : drive r s = .next t ↔
      ((none : Option IllFormed) = none ∧ false = false) ∧ t = s.withRsp r := by
    rw [drive_eq_next_iff, and_iff_right ⟨rfl, rfl⟩]
  cases i with
  | add a b => exact sequences
  | sub a b => exact sequences
  | cmp a b => exact sequences
  | fa x y c => exact cells
  | fs x y b => exact cells
  | lt x y l => exact cells
  | reserved011 => simp [exec, execReserved011, Instr.isReserved]
  | reserved111 => simp [exec, execReserved111, Instr.isReserved]

/-- A cell operation decodes to an instruction that is legal at every WMAX. -/
theorem legal_decode_of_cellOp {q : Request} (h : IsCellOp q.op) (c : Config) : (decode q).Legal c := by
  rcases h with h | h | h
  · rw [decode_of_op100 h]; exact ⟨rfl, rfl⟩
  · rw [decode_of_op101 h]; exact ⟨rfl, rfl⟩
  · rw [decode_of_op110 h]; exact ⟨rfl, rfl⟩

/-- A legal request is answered with the response of its instruction. -/
theorem step_of_legal {s : State} (h : (decode s.req).Legal s.cfg) :
    step s = .next (s.withRsp (responseOf (decode s.req))) :=
  exec_eq_next_iff.mpr ⟨h, rfl⟩

/-- Settles O35: both ports decode to one instruction, which COREs of any WMAX answer alike. -/
theorem cellOperandAssembly : Obligations.CellOperandAssembly := by
  refine ⟨fun _ => ⟨decode_of_op100, decode_of_op101, decode_of_op110⟩, fun s t hcell hop hx hy hsin => ?_⟩
  have hdec : decode t.req = decode s.req := decode_congr_of_cellOp hcell hop hx hy hsin
  have hs := step_of_legal (legal_decode_of_cellOp hcell s.cfg)
  have ht := step_of_legal (hdec ▸ legal_decode_of_cellOp hcell t.cfg)
  rw [observed_of_step_eq_next hs, observed_of_step_eq_next ht, State.withRsp_rsp, State.withRsp_rsp, hdec]

/-- Settles O50: the outcome depends on WMAX and the decoded request alone. -/
theorem responseOfRequestAlone : Obligations.ResponseOfRequestAlone :=
  fun _ _ hc hq => observed_congr hc (congrArg decode hq)

/-! ## The fields of a response (R59, R60, R62) -/

/-- Settles O39: by the definitions. -/
theorem enumerationBits : Obligations.EnumerationBits := ⟨rfl, rfl, rfl, rfl⟩

theorem testBit_sequenceResponse (r : BitSeq) (sout : Bit) (j : Nat) :
    (sequenceResponse r sout).r.testBit j = bitAt r j := by
  rw [sequenceResponse, busOfSeq_eq_val, testBit_val]

/-- Settles O37: the bus holds the padded read of the sequence, and each operation drives its response. -/
theorem resultAssembly : Obligations.ResultAssembly := by
  refine ⟨fun r sout => ?_, fun s a b h => ?_, fun s x y c => ⟨rfl, rfl⟩, fun s t r i h hr hi => ?_⟩
  · refine ⟨rfl, fun j _ => testBit_sequenceResponse r sout j, fun j hj => ?_⟩
    rw [testBit_sequenceResponse, bitAt_of_length_le hj]
  · exact ⟨answerSequences_of_legal _ h, _, _, _, rfl, exec_sub_of_legal h⟩
  · obtain ⟨-, rfl⟩ := exec_eq_next_iff.mp h
    obtain rfl : responseOf i = r := by simpa using hr
    rcases hi with ⟨a, b, rfl⟩ | ⟨x, y, l, rfl⟩
    · exact ⟨rfl, rfl⟩
    · exact ⟨rfl, rfl⟩

/-- SUB shows no comparison on LESS. -/
theorem less_subResponse (a b : BitSeq) : (subResponse a b).less = false := by
  rw [subResponse_eq]
  split <;> rfl

/-- Settles O38: read off the response of each instruction. -/
theorem undefinedFieldsAreZero : Obligations.UndefinedFieldsAreZero := by
  intro s t i h
  obtain ⟨⟨-, hres⟩, rfl⟩ := exec_eq_next_iff.mp h
  refine ⟨responseOf i, rfl, ?_⟩
  cases i with
  | add a b => simp [responseOf, sequenceResponse, Response.undriven]
  | sub a b => simp [responseOf, less_subResponse]
  | cmp a b => simp [responseOf, Response.undriven]
  | fa x y c => simp [responseOf, sequenceResponse, Response.undriven]
  | fs x y b => simp [responseOf, sequenceResponse, Response.undriven]
  | lt x y l => simp [responseOf, stateBitResponse, Response.undriven]
  | reserved011 => cases hres
  | reserved111 => cases hres

/-! ## The checks of lengths (R64, 60_exceptions.md R143, R146) -/

theorem checkLengths_of_empty (c : Config) {a b : BitSeq} (h : a.length = 0 ∨ b.length = 0) :
    checkLengths c a b = some .emptyOperand := if_pos h

theorem checkLengths_of_oversize {c : Config} {a b : BitSeq} (ha : a.length ≠ 0) (hb : b.length ≠ 0)
    (h : c.wmax < a.length ∨ c.wmax < b.length) : checkLengths c a b = some .lengthOutOfRange := by
  rw [checkLengths, if_neg (not_or.mpr ⟨ha, hb⟩), if_pos h]

/-- ADD, SUB and CMP are refused for the reason of the checks. -/
theorem exec_sequence_refused {s : State} {a b : BitSeq} {why : Refusal} (h : checkLengths s.cfg a b = some why) :
    exec (.add a b) s = .refused why ∧ exec (.sub a b) s = .refused why ∧ exec (.cmp a b) s = .refused why := by
  have refused (r : Response) : answerSequences a b r s = .refused why := by simp [answerSequences, h]
  exact ⟨refused _, refused _, refused _⟩

/-- Settles O45: the reason of the checks in either case, and the cells are legal at every WMAX. -/
theorem lengthsAreChecked : Obligations.LengthsAreChecked :=
  ⟨fun s _ _ h => exec_sequence_refused (checkLengths_of_empty s.cfg h),
    fun _ _ _ ha hb h => exec_sequence_refused (checkLengths_of_oversize ha hb h),
    fun s h => ⟨_, step_of_legal (legal_decode_of_cellOp h s.cfg)⟩⟩

/-! ## The invariant of the ports (R55, R59, R60; 10_state.md R26, R30) -/

/-- A sequence of up to WMAX + 1 digits fits the result bus, with a sign if it is not empty. -/
theorem responseFits_sequenceResponse {c : Config} {r : BitSeq} (hlen : r.length ≤ c.wmax + 1) (sout sign : Bit)
    (hsign : sign = true → 1 ≤ r.length) :
    ResponseFits c { sequenceResponse r sout with sign := sign } where
  length := hlen
  result := by
    simp only [sequenceResponse, busOfSeq_eq_val]
    exact val_lt_two_pow r
  sign := hsign
  less := by simp [sequenceResponse, Response.undriven]

/-- The sum is at most one digit longer than the longer operand (42_ripple_add.md R111). -/
theorem length_addSeq_le {c : Config} {a b : BitSeq} (h : LegalOperands c a b) :
    (addSeq a b).length ≤ c.wmax + 1 := by
  have hw := width_le_wmax h
  have hcarry := Bool.toNat_le (finalCarry a b)
  rw [length_addSeq]
  omega

/-- The magnitude of a difference has at least one digit and at most WMAX (44_ripple_sub.md R132, R133). -/
theorem length_norm_rawDifference {c : Config} {m n : BitSeq} (h : LegalOperands c m n) :
    1 ≤ (normSeq (rawDifference m n)).length ∧ (normSeq (rawDifference m n)).length ≤ c.wmax := by
  refine ⟨List.length_pos_of_ne_nil (norm_ne_nil (rawDifference_ne_nil (one_le_width h))), ?_⟩
  calc (normSeq (rawDifference m n)).length ≤ (rawDifference m n).length := length_norm_le _
    _ = width m n := length_rawDifference m n
    _ ≤ c.wmax := width_le_wmax h

/-- The operands in the order CMP chose are as legal as they were. -/
theorem legalOperands_orderOperands {c : Config} {a b : BitSeq} (h : LegalOperands c a b) :
    LegalOperands c (orderOperands a b).1 (orderOperands a b).2.1 := by
  unfold orderOperands
  split
  · exact h
  · exact h.symm

theorem responseFits_subResponse {c : Config} {a b : BitSeq} (h : LegalOperands c a b) :
    ResponseFits c (subResponse a b) := by
  obtain ⟨hpos, hle⟩ := length_norm_rawDifference (legalOperands_orderOperands h)
  exact responseFits_sequenceResponse (Nat.le_succ_of_le hle) _ _ fun _ => hpos

/-- The response to a legal instruction fits the fields of a CORE that admits it. -/
theorem responseFits_responseOf {c : Config} {i : Instr} (h : i.Legal c) : ResponseFits c (responseOf i) := by
  have noSign {r : BitSeq} (hlen : r.length ≤ c.wmax + 1) (sout : Bit) :
      ResponseFits c (sequenceResponse r sout) :=
    responseFits_sequenceResponse hlen sout false (by simp)
  obtain ⟨hwf, hres⟩ := h
  cases i with
  | add a b => exact noSign (length_addSeq_le ((illFormedOperands_eq_none_iff c a b).mp hwf)) _
  | sub a b => exact responseFits_subResponse ((illFormedOperands_eq_none_iff c a b).mp hwf)
  | cmp a b => exact ⟨Nat.zero_le _, Nat.one_pos, nofun, fun _ => ⟨rfl, rfl, rfl⟩⟩
  | fa x y z => exact noSign (Nat.le_add_left 1 _) _
  | fs x y z => exact noSign (Nat.le_add_left 1 _) _
  | lt x y z => exact ⟨Nat.zero_le _, Nat.one_pos, nofun, nofun⟩
  | reserved011 => cases hres
  | reserved111 => cases hres

/-- Settles O56: a step that answers drives the response of a legal instruction, and leaves WMAX and the request as
they were; evaluating again answers the same. -/
theorem stepKeepsInvariant : Obligations.StepKeepsInvariant := by
  intro s t hinv hstep
  obtain ⟨hlegal, rfl⟩ := exec_eq_next_iff.mp hstep
  have held := evaluationIsIdempotent s _ hstep
  refine ⟨hinv.wmax, hinv.req, fun r hr => ?_, fun _ _ => held⟩
  obtain rfl : responseOf (decode s.req) = r := by simpa using hr
  exact responseFits_responseOf hlegal

end Sys2Proof.Machine
end

section
/-! Bit logic (40_bitlogic.md): the gates are the Boolean connectives. -/

namespace Sys2Proof.Machine

/-! ## Truth tables (R80 to R83) -/

theorem toNat_gateNot (x : Bit) : (gateNot x).toNat = 1 - x.toNat := by
  cases x <;> rfl

theorem gateAnd_eq_true_iff (x y : Bit) : gateAnd x y = true ↔ x = true ∧ y = true := by
  rw [gateAnd_eq, Bool.and_eq_true_iff]

theorem gateOr_eq_false_iff (x y : Bit) : gateOr x y = false ↔ x = false ∧ y = false := by
  rw [gateOr_eq, Bool.or_eq_false_iff]

theorem gateXor_eq_true_iff (x y : Bit) : gateXor x y = true ↔ x ≠ y := by
  rw [gateXor_eq, Bool.xor_iff_ne]

/-! ## Corner cases (R81, R82, R83) -/

theorem gateAnd_comm (x y : Bit) : gateAnd x y = gateAnd y x := by
  rw [gateAnd_eq, gateAnd_eq, Bool.and_comm]

theorem gateOr_comm (x y : Bit) : gateOr x y = gateOr y x := by
  rw [gateOr_eq, gateOr_eq, Bool.or_comm]

theorem gateXor_comm (x y : Bit) : gateXor x y = gateXor y x := by
  rw [gateXor_eq, gateXor_eq, Bool.xor_comm]

theorem gateXor_self (x : Bit) : gateXor x x = false := by
  rw [gateXor_eq, Bool.xor_self]

theorem gateXor_false (x : Bit) : gateXor x false = x := by
  rw [gateXor_eq, Bool.xor_false]

theorem gateXor_assoc (x y z : Bit) : gateXor (gateXor x y) z = gateXor x (gateXor y z) := by
  simp only [gateXor_eq, Bool.xor_assoc]

/-- Settles O3: each gate is its Boolean connective, and the composed form is the definition of `gateXor`. -/
theorem gatesFollowTruthTables : Obligations.GatesFollowTruthTables := fun x y z =>
  ⟨toNat_gateNot x, gateAnd_eq_true_iff x y, gateOr_eq_false_iff x y, rfl, gateXor_eq_true_iff x y,
    gateAnd_comm x y, gateOr_comm x y, gateXor_comm x y, gateXor_self x, gateXor_false x, gateXor_assoc x y z⟩

end Sys2Proof.Machine
end

section
/-! Cells (41_cells.md): the five cells as arithmetic, their symmetries, and the operations FA, FS and LT. -/

namespace Sys2Proof.Machine

/-! ## The adder cell (R90, R91) -/

theorem toNat_sumBit (x y c : Bit) : (sumBit x y c).toNat = (x.toNat + y.toNat + c.toNat) % 2 := by
  have hadd := adder_cell x y c
  have hsum := Bool.toNat_lt (sumBit x y c)
  omega

theorem carryOut_eq_true_iff (x y c : Bit) : carryOut x y c = true ↔ 2 ≤ x.toNat + y.toNat + c.toNat := by
  have hadd := adder_cell x y c
  have hsum := Bool.toNat_lt (sumBit x y c)
  have hcarry := Bool.toNat_lt (carryOut x y c)
  rw [← Bool.toNat_eq_one]
  omega

theorem sumBit_right_comm (x y c : Bit) : sumBit x y c = sumBit x c y := by
  rw [sumBit, sumBit, gateXor_assoc, gateXor_comm y c, gateXor_assoc]

theorem carryOut_right_comm (x y c : Bit) : carryOut x y c = carryOut x c y := by
  rw [Bool.eq_iff_iff, carryOut_eq_true_iff, carryOut_eq_true_iff, Nat.add_right_comm]

/-! ## The subtractor cell (R92, R93) -/

theorem borrowOut_eq_true_iff (x y b : Bit) : borrowOut x y b = true ↔ x.toNat < y.toNat + b.toNat := by
  have hsub := subtractor_cell x y b
  have hdiff := Bool.toNat_lt (diffBit x y b)
  have hborrow := Bool.toNat_lt (borrowOut x y b)
  rw [← Bool.toNat_eq_one]
  omega

theorem borrowOut_right_comm (x y b : Bit) : borrowOut x y b = borrowOut x b y := by
  rw [Bool.eq_iff_iff, borrowOut_eq_true_iff, borrowOut_eq_true_iff, Nat.add_comm]

/-- 0 - 1 borrows, 1 - 0 does not. -/
theorem exists_borrowOut_ne_swap : ∃ x y b : Bit, borrowOut x y b ≠ borrowOut y x b :=
  ⟨false, true, false, by decide⟩

/-- Settles O4: the carry and the borrow are comparisons of bit sums, which give the symmetries. -/
theorem adderAndSubtractorCells : Obligations.AdderAndSubtractorCells :=
  ⟨exists_borrowOut_ne_swap, fun x y c =>
    ⟨rfl, toNat_sumBit x y c, sumBit_comm x y c, sumBit_right_comm x y c,
      rfl, carryOut_eq_true_iff x y c, carryOut_comm x y c, carryOut_right_comm x y c,
      rfl, rfl, rfl, borrowOut_eq_true_iff x y c, borrowOut_right_comm x y c⟩⟩

/-! ## The comparator cell (R94) -/

/-- The cell passes `l` where the bits are equal; where they differ, the right bit decides. -/
theorem lessSoFar_eq_ite (x y l : Bit) : lessSoFar x y l = if x = y then l else y := by
  cases x <;> cases y <;> cases l <;> rfl

/-- Settles O5: each row case picks a branch of the cell's choice. -/
theorem lessSoFarDecidesOrPasses : Obligations.LessSoFarDecidesOrPasses := by
  intro x y l
  refine ⟨rfl, ?_, ?_, fun hxy => ?_⟩
  · rintro rfl rfl
    rw [lessSoFar_eq_ite, if_neg Bool.false_ne_true]
  · rintro rfl rfl
    rw [lessSoFar_eq_ite, if_neg Bool.false_ne_true.symm]
  · rw [lessSoFar_eq_ite, if_pos hxy]

/-! ## Identities (R98) -/

/-- The subtractor cell with the borrow subtracted, in the integers. -/
theorem subtractor_cell_int (x y b : Bit) :
    (x.toNat : Int) - y.toNat - b.toNat = (diffBit x y b).toNat - 2 * ((borrowOut x y b).toNat : Int) := by
  have hsub := subtractor_cell x y b
  omega

/-- Settles O6: the adder and subtractor cells as arithmetic, and the laws of the cells. -/
theorem cellIdentities : Obligations.CellIdentities := fun x y s =>
  ⟨(adder_cell x y s).symm, subtractor_cell_int x y s, by rw [lessSoFar_eq_borrowOut],
    sumBit_comm x y s, carryOut_comm x y s⟩

/-! ## FA, FS, LT (R95, R96, R97) -/

/-- A one-bit result stands on R[0] alone (30_encoding.md R59, R60). -/
theorem sequenceResponse_singleton (b sout : Bit) :
    sequenceResponse [b] sout = { r := b.toNat, rLen := 1, sign := false, less := false, sout := sout } := by
  cases b <;> rfl

theorem exec_fa (s : State) (x y c : Bit) :
    exec (.fa x y c) s = .next (s.withRsp
      { r := (sumBit x y c).toNat, rLen := 1, sign := false, less := false, sout := carryOut x y c }) := by
  rw [exec, execFa, drive, sequenceResponse_singleton]

theorem exec_fs (s : State) (x y b : Bit) :
    exec (.fs x y b) s = .next (s.withRsp
      { r := (diffBit x y b).toNat, rLen := 1, sign := false, less := false, sout := borrowOut x y b }) := by
  rw [exec, execFs, drive, sequenceResponse_singleton]

theorem exec_lt (s : State) (x y l : Bit) :
    exec (.lt x y l) s = .next (s.withRsp
      { r := 0, rLen := 0, sign := false, less := false, sout := lessSoFar x y l }) := by
  rw [exec, execLt, drive, stateBitResponse, Response.undriven]

/-- Settles O7: the response written out, the decoded request run, the line as printed. -/
theorem faAnswersFullAdderCell : Obligations.FaAnswersFullAdderCell :=
  ⟨exec_fa, fun s hop => stepRunsDecodedRequest s _ (decode_of_op100 hop), fun _ _ _ => rfl⟩

/-- Settles O8: as FA, with the subtractor cell. -/
theorem fsAnswersFullSubtractorCell : Obligations.FsAnswersFullSubtractorCell :=
  ⟨exec_fs, fun s hop => stepRunsDecodedRequest s _ (decode_of_op101 hop), fun _ _ _ => rfl⟩

/-- Settles O9: the less-so-far bit is the state bit of the response, and LESS stays undriven. -/
theorem ltAnswersOnSout : Obligations.LtAnswersOnSout :=
  ⟨exec_lt, fun s hop => stepRunsDecodedRequest s _ (decode_of_op110 hop), fun _ _ _ => rfl⟩

end Sys2Proof.Machine
end

section
/-! Ripple-carry addition (42_ripple_add.md): the digits of the sum sequence, and what ADD answers with them. -/

namespace Sys2Proof.Machine

/-! ## The digits of the sum sequence (R110, R111) -/

/-- Below the width, the sum sequence reads the sum bits of the cells. -/
theorem bitAt_addSeq_of_lt {a b : BitSeq} {i : Nat} (h : i < width a b) :
    bitAt (addSeq a b) i = sumBit (bitAt a i) (bitAt b i) (chainState carryOut a b i) := by
  rw [← bitAt_chainBits sumBit carryOut a b h]
  unfold addSeq
  split
  · rw [bitAt_cons, length_chainBits, if_neg (Nat.ne_of_lt h)]
  · rfl

/-- At the width, the sum sequence reads the final carry: the 1 put in front, or the padding. -/
theorem bitAt_addSeq_width (a b : BitSeq) : bitAt (addSeq a b) (width a b) = finalCarry a b := by
  unfold addSeq
  split
  · rename_i hcarry
    rw [bitAt_cons, length_chainBits, if_pos rfl, hcarry]
  · rename_i hcarry
    rw [bitAt_of_length_le (length_chainBits _ _ _ _ _).le, Bool.eq_false_of_not_eq_true hcarry]

/-- The final carry is the carry out of the top cell. -/
theorem finalCarry_eq_carryOut {a b : BitSeq} (h : 1 ≤ width a b) :
    finalCarry a b = carryOut (bitAt a (width a b - 1)) (bitAt b (width a b - 1))
      (chainState carryOut a b (width a b - 1)) := by
  rw [← chainState_succ carryOut, Nat.sub_add_cancel h, finalCarry]

theorem finalCarry_eq_decide (a b : BitSeq) :
    finalCarry a b = decide (2 ^ width a b ≤ val a + val b) := by
  rw [Bool.eq_iff_iff, finalCarry_iff, decide_eq_true_iff]

theorem addSeq_ne_nil {a b : BitSeq} (h : 1 ≤ width a b) : addSeq a b ≠ [] := by
  apply List.ne_nil_of_length_pos
  rw [length_addSeq]
  omega

/-! ## What ADD answers (R110, R111, R113) -/

/-- Reading the result bus back gives the sequence that was driven. -/
@[simp] theorem resultSeq_sequenceResponse (r : BitSeq) (sout : Bit) :
    (sequenceResponse r sout).resultSeq = r := by
  simp only [Response.resultSeq, sequenceResponse, busOfSeq_eq_val, seqOfBus_val]

/-- ADD on legal operands, as the sum sequence driven on the result bus. -/
theorem exec_add_eq_sequenceResponse {s : State} {a b : BitSeq} (h : LegalOperands s.cfg a b) :
    exec (.add a b) s = .next (s.withRsp (sequenceResponse (addSeq a b) (finalCarry a b))) :=
  answerSequences_of_legal _ h

/-- Illegal operands fail a check, for which ADD, SUB and CMP refuse them. -/
theorem exists_sequence_refused {s : State} {a b : BitSeq} (h : ¬ LegalOperands s.cfg a b) :
    ∃ why, exec (.add a b) s = .refused why ∧ exec (.sub a b) s = .refused why ∧
      exec (.cmp a b) s = .refused why := by
  have hcheck : checkLengths s.cfg a b ≠ none := mt (checkLengths_eq_none_iff _ _ _).mp h
  obtain ⟨why, hwhy⟩ := Option.ne_none_iff_exists'.mp hcheck
  exact ⟨why, exec_sequence_refused hwhy⟩

/-- Settles O10: the carries are the chain's states and the raw sequence its sum bits. -/
theorem addIsRippleCarryChain : Obligations.AddIsRippleCarryChain := by
  refine ⟨fun s a b h => ?_, fun s a b h => ?_, fun s hop => ?_, fun _ _ => rfl⟩
  · exact ⟨chainState carryOut a b, chainBits sumBit carryOut a b (width a b), addSeq a b,
      chainState_zero _ a b, length_chainBits _ _ _ _ _,
      fun i hi => ⟨bitAt_chainBits _ _ a b hi, chainState_succ _ a b i⟩, rfl, exec_add_of_legal h⟩
  · obtain ⟨why, hadd, -⟩ := exists_sequence_refused h
    exact ⟨why, hadd⟩
  · exact stepRunsDecodedRequest s _ (decode_of_op000 hop)

/-- The sum of legal operands fits the result bus of WMAX + 1 bits. -/
theorem val_addSeq_lt {c : Config} {a b : BitSeq} (h : LegalOperands c a b) :
    val (addSeq a b) < 2 ^ (c.wmax + 1) :=
  (val_lt_two_pow _).trans_le (Nat.pow_le_pow_right Nat.two_pos (length_addSeq_le h))

/-- Settles O11: the value, the length and the final carry of the sum sequence, in terms of the operands' values. -/
theorem addAnswersExactSum : Obligations.AddAnswersExactSum := by
  intro s a b h
  have hexec := exec_add_of_legal h
  have hfits := val_lt_two_pow (addSeq a b)
  have hbus := val_addSeq_lt h
  rw [val_addSeq] at hexec hfits hbus
  rw [length_addSeq, finalCarry_eq_decide] at hexec hfits
  exact ⟨hexec, hfits, hbus⟩

/-! ## Commutativity (R114) -/

theorem finalCarry_comm (a b : BitSeq) : finalCarry a b = finalCarry b a := by
  rw [finalCarry_eq_decide, finalCarry_eq_decide, width_comm, Nat.add_comm]

/-- Both orders give the same sum at the same length, which fix the digits. -/
theorem addSeq_comm (a b : BitSeq) : addSeq a b = addSeq b a := by
  apply eq_of_val_eq
  · rw [length_addSeq, length_addSeq, width_comm, finalCarry_comm]
  · rw [val_addSeq, val_addSeq, Nat.add_comm]

/-- Settles O13: neither the checks nor the response tell the operands apart. -/
theorem addCommutes : Obligations.AddCommutes := by
  intro s a b
  simp only [exec, execAdd, answerSequences]
  rw [checkLengths_comm, addSeq_comm, finalCarry_comm]

/-! ## The leading digit (R111, R115) -/

/-- The leading digit of a sequence is its bit of the highest weight. -/
theorem head?_eq_bitAt {s : BitSeq} (h : s ≠ []) : s.head? = some (bitAt s (s.length - 1)) := by
  cases s with
  | nil => exact absurd rfl h
  | cons b t => simp [bitAt_cons]

/-- A sequence is not normalized when it has two or more digits and the top one is 0 (R22). -/
theorem not_normalized_iff {s : BitSeq} (h : s ≠ []) :
    ¬ Normalized s ↔ 2 ≤ s.length ∧ bitAt s (s.length - 1) = false := by
  cases s with
  | nil => exact absurd rfl h
  | cons b t =>
    have hlen : 2 ≤ (b :: t).length ↔ t ≠ [] := by
      rw [List.length_cons, ← List.length_pos_iff]
      omega
    rw [Normalized, norm_eq_self_iff, hlen]
    simp [bitAt_cons]

/-- The leading digit is the 1 put in front, when there is a final carry. -/
theorem head?_addSeq_of_carry {a b : BitSeq} (h : finalCarry a b = true) :
    (addSeq a b).head? = some true := by
  rw [addSeq, if_pos h, List.head?_cons]

/-- The leading digit is the top sum bit, when there is no final carry. -/
theorem head?_addSeq_of_no_carry {a b : BitSeq} (hw : 1 ≤ width a b) (h : finalCarry a b = false) :
    (addSeq a b).head? = some (sumBit (bitAt a (width a b - 1)) (bitAt b (width a b - 1))
      (chainState carryOut a b (width a b - 1))) := by
  rw [head?_eq_bitAt (addSeq_ne_nil hw), length_addSeq, h, Bool.toNat_false, Nat.add_zero,
    bitAt_addSeq_of_lt (Nat.sub_one_lt_of_lt hw)]

/-- Settles O12: the response's fields are the length and the final carry of the sum sequence. -/
theorem addResultWidth : Obligations.AddResultWidth := by
  intro s a b h
  refine ⟨_, exec_add_eq_sequenceResponse h, length_addSeq a b, fun hcarry => ?_, rfl, length_addSeq_le h, ?_⟩
  · rw [resultSeq_sequenceResponse, head?_addSeq_of_carry hcarry]
  · simp only [sequenceResponse, busOfSeq_eq_val, val_addSeq_lt h]

/-- A cell shows 0 on both outputs only when its three bits are 0. -/
theorem sumBit_and_carryOut_eq_false_iff (x y c : Bit) :
    carryOut x y c = false ∧ sumBit x y c = false ↔ x = false ∧ y = false ∧ c = false := by
  cases x <;> cases y <;> cases c <;> decide

/-- The sum has a leading zero exactly when the top cell of two or more adds three zeros. -/
theorem not_normalized_addSeq_iff {a b : BitSeq} (hw : 1 ≤ width a b) :
    ¬ Normalized (addSeq a b) ↔ 2 ≤ width a b ∧ bitAt a (width a b - 1) = false ∧
      bitAt b (width a b - 1) = false ∧ chainState carryOut a b (width a b - 1) = false := by
  have htop : width a b - 1 < width a b := Nat.sub_one_lt_of_lt hw
  rw [not_normalized_iff (addSeq_ne_nil hw), length_addSeq, ← sumBit_and_carryOut_eq_false_iff,
    ← finalCarry_eq_carryOut hw, ← bitAt_addSeq_of_lt htop]
  cases hcarry : finalCarry a b with
  | false => simp
  | true => simp [bitAt_addSeq_width, hcarry]

/-- An operand that reaches the top of two or more positions and reads 0 there has a leading zero. -/
theorem not_normalized_of_top_eq_false {s : BitSeq} {w : Nat} (hs : s.length = w) (hw : 2 ≤ w)
    (htop : bitAt s (w - 1) = false) : ¬ Normalized s := by
  subst hs
  exact (not_normalized_iff (List.ne_nil_of_length_pos (by omega))).mpr ⟨hw, htop⟩

/-- A leading zero of the sum needs one in the longer operand, or in both at equal lengths. -/
theorem not_normalized_of_not_normalized_addSeq {a b : BitSeq} (hw : 1 ≤ width a b)
    (h : ¬ Normalized (addSeq a b)) :
    (b.length ≤ a.length → ¬ Normalized a) ∧ (a.length ≤ b.length → ¬ Normalized b) := by
  obtain ⟨htwo, ha, hb, -⟩ := (not_normalized_addSeq_iff hw).mp h
  exact ⟨fun hle => not_normalized_of_top_eq_false (max_eq_left hle).symm htwo ha,
    fun hle => not_normalized_of_top_eq_false (max_eq_right hle).symm htwo hb⟩

/-- The sum of normalized operands is normalized. -/
theorem normalized_addSeq {a b : BitSeq} (ha : Normalized a) (hb : Normalized b) : Normalized (addSeq a b) := by
  have hw : 1 ≤ width a b := (List.length_pos_of_ne_nil ha.1).trans_le (le_max_left _ _)
  by_contra h
  obtain ⟨hleft, hright⟩ := not_normalized_of_not_normalized_addSeq hw h
  rcases Nat.le_total b.length a.length with hle | hle
  · exact hleft hle ha
  · exact hright hle hb

theorem val_replicate_false (n : Nat) : val (List.replicate n false) = 0 := by
  induction n with
  | zero => rfl
  | succ n ih => rw [List.replicate_succ, val, ih, Bool.toNat_false, Nat.zero_mul]

/-- Adding `[0]` to `n` zeros keeps the `n` zeros: the sum 0 at width `n`. -/
theorem exec_add_zeros {s : State} {n : Nat} (hpos : 1 ≤ n) (hmax : n ≤ s.cfg.wmax) :
    exec (.add (List.replicate n false) [false]) s = .next (s.withRsp
      { r := 0, rLen := n, sign := false, less := false, sout := false }) := by
  have hlegal : LegalOperands s.cfg (List.replicate n false) [false] := by
    rw [LegalOperands, LegalLength, LegalLength, List.length_replicate]
    exact ⟨⟨hpos, hmax⟩, Nat.le_refl 1, hpos.trans hmax⟩
  have hwidth : max n 1 = n := max_eq_left hpos
  obtain ⟨hexec, -⟩ := addAnswersExactSum s _ _ hlegal
  simpa [val_replicate_false, val, hwidth] using hexec

/-- Settles O14: each clause about the sum sequence, which is the sequence the response carries. -/
theorem addLeadingZeros : Obligations.AddLeadingZeros := by
  refine ⟨fun s n => exec_add_zeros, fun s a b h => ?_⟩
  have hw := one_le_width h
  refine ⟨_, exec_add_eq_sequenceResponse h, ?_⟩
  rw [resultSeq_sequenceResponse]
  exact ⟨head?_addSeq_of_carry, head?_addSeq_of_no_carry hw, not_normalized_addSeq_iff hw,
    not_normalized_of_not_normalized_addSeq hw, normalized_addSeq⟩

/-! ## A sequence added to itself (R116) -/

/-- Digits appended to a normalized sequence other than `[0]` leave it normalized: it begins with 1. -/
theorem normalized_append {a : BitSeq} (h : Normalized a) (hz : a ≠ [false]) (t : BitSeq) :
    Normalized (a ++ t) := by
  obtain ⟨hne, hself⟩ := h
  cases a with
  | nil => exact absurd rfl hne
  | cons b u =>
    have hone : b = true := by
      rcases (norm_eq_self_iff b u).mp hself with rfl | hb
      · simpa using hz
      · exact hb
    exact ⟨List.cons_ne_nil _ _, (norm_eq_self_iff b (u ++ t)).mpr (.inr hone)⟩

/-- Doubling a normalized sequence other than `[0]` appends a 0: both sides are normalized and of one value. -/
theorem addSeq_self {a : BitSeq} (h : Normalized a) (hz : a ≠ [false]) : addSeq a a = a ++ [false] := by
  apply normalized_eq_of_val_eq (normalized_addSeq h h) (normalized_append h hz _)
  rw [val_addSeq, val_append]
  simp [val, Nat.mul_two]

/-- Settles O15: the sum sequence of a sequence and itself, by its value and, when normalized, by its digits. -/
theorem addSelfAppendsZero : Obligations.AddSelfAppendsZero := by
  intro s a h
  refine ⟨_, exec_add_eq_sequenceResponse ⟨h, h⟩, ?_⟩
  rw [resultSeq_sequenceResponse]
  refine ⟨?_, addSeq_self, ?_⟩
  · rw [val_addSeq, Nat.two_mul]
  · rintro rfl
    decide

/-! ## The chain as FA operations (95_test_vectors.md P4) -/

/-- The response of FA on position `i` of the carry chain. -/
def chainCell (a b : BitSeq) (i : Nat) : Response :=
  sequenceResponse [sumBit (bitAt a i) (bitAt b i) (chainState carryOut a b i)] (chainState carryOut a b (i + 1))

/-- FA with the carry of position `i` on SIN answers with the sum bit and the carry of position `i + 1`. -/
theorem exec_fa_chainState (s : State) (a b : BitSeq) (i : Nat) :
    exec (.fa (bitAt a i) (bitAt b i) (chainState carryOut a b i)) s =
      .next (s.withRsp (chainCell a b i)) := rfl

theorem testBit_chainCell (a b : BitSeq) (i : Nat) :
    (chainCell a b i).r.testBit 0 = sumBit (bitAt a i) (bitAt b i) (chainState carryOut a b i) := by
  rw [chainCell, testBit_sequenceResponse, bitAt_cons, List.length_nil, if_pos rfl]

/-- Settles O16: each FA gets the carry of its position on SIN, so it shows the sum bit there and passes on the next
carry. -/
theorem addIsChainOfFaCells : Obligations.AddIsChainOfFaCells := by
  intro s a b h
  refine ⟨_, chainCell a b, exec_add_eq_sequenceResponse h, exec_fa_chainState s a b 0,
    fun i _ => exec_fa_chainState s a b (i + 1), fun i hi => ?_, ?_⟩
  · rw [testBit_sequenceResponse, bitAt_addSeq_of_lt hi, testBit_chainCell]
  · exact finalCarry_eq_carryOut (one_le_width h)

end Sys2Proof.Machine
end

section
/-! Compare (43_compare.md): what decides the comparator fold, and CMP as a comparison of lengths and of values. -/

namespace Sys2Proof.Machine

/-! ## The response of CMP (R120) -/

/-- CMP on legal operands shows whatever proposition its comparison is known to decide. -/
theorem exec_cmp_eq_decide {s : State} {a b : BitSeq} {p : Prop} [Decidable p] (h : LegalOperands s.cfg a b)
    (hp : compareSeqs a b = .less ↔ p) :
    exec (.cmp a b) s = .next (s.withRsp
      { r := 0, rLen := 0, sign := false, less := decide p, sout := false }) := by
  rw [exec_cmp_of_legal h, lessBit_eq_decide, decide_eq_decide.mpr hp]

/-- The bit on LESS: the length test, or the fold over all positions. -/
theorem lessBit_compareSeqs (a b : BitSeq) :
    lessBit (compareSeqs a b) =
      if a.length ≠ b.length then decide (a.length < b.length) else chainState lessSoFar a b a.length := by
  by_cases hlen : a.length = b.length
  · rw [if_neg (not_not.mpr hlen), compareSeqs, if_neg (not_not.mpr hlen)]
    cases chainState lessSoFar a b a.length <;> rfl
  · rw [if_pos hlen, lessBit_eq_decide, decide_eq_decide]
    exact compareSeqs_of_length_ne hlen

/-- Settles O17: the bits are the states of the comparator chain. -/
theorem cmpIsLengthTestThenFold : Obligations.CmpIsLengthTestThenFold := by
  refine ⟨fun s a b h => ?_, fun s a b h => ?_, fun s hop => ?_, fun _ _ => rfl⟩
  · refine ⟨chainState lessSoFar a b, chainState_zero _ a b, fun i _ => chainState_succ _ a b i, ?_⟩
    rw [exec_cmp_of_legal h, lessBit_compareSeqs]
  · obtain ⟨why, -, -, hcmp⟩ := exists_sequence_refused h
    exact ⟨why, hcmp⟩
  · exact stepRunsDecodedRequest s _ (decode_of_op010 hop)

/-! ## The position that decides (R121) -/

/-- Among the positions below `n`, the highest one at which the sequences differ has 0 in `a` and 1 in `b`. -/
def LessAtTopDifference (a b : BitSeq) (n : Nat) : Prop :=
  ∃ i, i < n ∧ bitAt a i = false ∧ bitAt b i = true ∧ ∀ j, i < j → j < n → bitAt a j = bitAt b j

theorem not_lessAtTopDifference_zero (a b : BitSeq) : ¬ LessAtTopDifference a b 0 := by
  rintro ⟨i, hi, -⟩
  exact Nat.not_lt_zero i hi

/-- A top position with equal bits decides nothing. -/
theorem lessAtTopDifference_succ_of_eq {a b : BitSeq} {n : Nat} (h : bitAt a n = bitAt b n) :
    LessAtTopDifference a b (n + 1) ↔ LessAtTopDifference a b n := by
  constructor
  · rintro ⟨i, hi, ha, hb, habove⟩
    have hne : i ≠ n := by
      rintro rfl
      simp [ha, hb] at h
    exact ⟨i, by omega, ha, hb, fun j hij hj => habove j hij (by omega)⟩
  · rintro ⟨i, hi, ha, hb, habove⟩
    refine ⟨i, by omega, ha, hb, fun j hij hj => ?_⟩
    rcases Nat.lt_succ_iff_lt_or_eq.mp hj with hlt | rfl
    · exact habove j hij hlt
    · exact h

/-- A top position with different bits decides alone, by the bit of `b`. -/
theorem lessAtTopDifference_succ_of_ne {a b : BitSeq} {n : Nat} (h : bitAt a n ≠ bitAt b n) :
    LessAtTopDifference a b (n + 1) ↔ bitAt b n = true := by
  constructor
  · rintro ⟨i, hi, -, hb, habove⟩
    rcases Nat.lt_succ_iff_lt_or_eq.mp hi with hlt | rfl
    · exact absurd (habove n hlt n.lt_succ_self) h
    · exact hb
  · intro hb
    exact ⟨n, n.lt_succ_self, by simpa [hb] using h, hb, fun j hij hj => by omega⟩

/-- The fold from the bottom up keeps the decision of the highest differing position seen so far. -/
theorem chainState_lessSoFar_iff (a b : BitSeq) (n : Nat) :
    chainState lessSoFar a b n = true ↔ LessAtTopDifference a b n := by
  induction n with
  | zero => simp [not_lessAtTopDifference_zero]
  | succ n ih =>
    rw [chainState_succ, lessSoFar_eq_ite]
    by_cases h : bitAt a n = bitAt b n
    · rw [if_pos h, ih, lessAtTopDifference_succ_of_eq h]
    · rw [if_neg h, lessAtTopDifference_succ_of_ne h]

/-- Settles O18: LESS is the fold, which the top difference decides and whose cell is the borrow cell. -/
theorem cmpDecidedByTopDifference : Obligations.CmpDecidedByTopDifference := by
  intro s a b h hlen
  have hless : lessBit (compareSeqs a b) = chainState lessSoFar a b a.length := by
    rw [lessBit_compareSeqs, if_neg (not_not.mpr hlen)]
  refine ⟨_, exec_cmp_of_legal h, ?_, ?_⟩
  · rw [hless]
    exact chainState_lessSoFar_iff a b a.length
  · rw [hless, lessSoFar_eq_borrowOut]

/-! ## Different lengths (R122) -/

theorem exec_cmp_of_length_ne {s : State} {a b : BitSeq} (h : LegalOperands s.cfg a b)
    (hlen : a.length ≠ b.length) :
    exec (.cmp a b) s = .next (s.withRsp
      { r := 0, rLen := 0, sign := false, less := decide (a.length < b.length), sout := false }) :=
  exec_cmp_eq_decide h (compareSeqs_of_length_ne hlen)

/-- Normalized sequences of different lengths are ordered as their lengths. -/
theorem length_lt_iff_val_lt {a b : BitSeq} (ha : Normalized a) (hb : Normalized b) (hlen : a.length ≠ b.length) :
    a.length < b.length ↔ val a < val b :=
  (compareSeqs_of_length_ne hlen).symm.trans (compareSeqs_of_comparable (.inl ⟨ha, hb⟩))

/-- Settles O19: the response is written in the lengths alone, and on normalized operands the lengths order the
values. -/
theorem cmpByLengthReadsNoBit : Obligations.CmpByLengthReadsNoBit := by
  intro s a b h hlen
  refine ⟨exec_cmp_of_length_ne h hlen, fun a' b' ha hb => ?_, fun hdisagree => ?_⟩
  · have h' : LegalOperands s.cfg a' b' := by rwa [LegalOperands, LegalLength, LegalLength, ha, hb]
    rw [exec_cmp_of_length_ne h hlen, exec_cmp_of_length_ne h' (by rwa [ha, hb]), ha, hb]
  · rw [← not_and_or]
    rintro ⟨ha, hb⟩
    exact hdisagree (length_lt_iff_val_lt ha hb hlen)

/-! ## Magnitudes (R123) -/

/-- Under the premise of R123, CMP is the comparison of the values. -/
theorem exec_cmp_of_comparable {s : State} {a b : BitSeq} (h : LegalOperands s.cfg a b) (hc : Comparable a b) :
    exec (.cmp a b) s = .next (s.withRsp
      { r := 0, rLen := 0, sign := false, less := decide (val a < val b), sout := false }) :=
  exec_cmp_eq_decide h (compareSeqs_of_comparable hc)

/-- Settles O20: either case is the premise, and `001` is longer than `10` though smaller. -/
theorem cmpComparesMagnitudes : Obligations.CmpComparesMagnitudes := by
  refine ⟨fun s a b h hlen => exec_cmp_of_comparable h (.inr hlen),
    fun s a b h _ ha hb => exec_cmp_of_comparable h (.inl ⟨ha, hb⟩), fun s hwmax => ⟨?_, by decide⟩⟩
  have h : LegalOperands s.cfg [false, false, true] [true, false] :=
    ⟨⟨by decide, hwmax⟩, by decide, Nat.le_of_succ_le hwmax⟩
  exact exec_cmp_of_length_ne h (by decide)

/-! ## No EQUAL (R124) -/

theorem comparable_symm {a b : BitSeq} (h : Comparable a b) : Comparable b a :=
  h.imp And.symm Eq.symm

/-- Under the premise of R123, CMP answers NOT_LESS when the left value is not the smaller one. -/
theorem exec_cmp_notLess {s : State} {a b : BitSeq} (h : LegalOperands s.cfg a b) (hc : Comparable a b)
    (hv : val b ≤ val a) :
    exec (.cmp a b) s = .next (s.withRsp
      { r := 0, rLen := 0, sign := false, less := false, sout := false }) := by
  rw [exec_cmp_of_comparable h hc, decide_eq_false (Nat.not_lt.mpr hv)]

/-- Settles O21: the comparison of the values in both orders; a sequence has its own length. -/
theorem cmpHasNoEqual : Obligations.CmpHasNoEqual := by
  refine ⟨fun r => ?_, fun s a h => ?_, fun s a b h hc hv => ?_, fun s a b h hc hv => ?_⟩
  · cases r with
    | less => exact .inl rfl
    | notLess => exact .inr rfl
  · exact exec_cmp_notLess ⟨h, h⟩ (.inr rfl) (Nat.le_refl _)
  · have hab := exec_cmp_notLess h hc hv.ge
    exact ⟨hab, (exec_cmp_notLess h.symm (comparable_symm hc) hv.le).trans hab.symm⟩
  · refine ⟨exec_cmp_notLess h hc hv.le, ?_⟩
    rw [exec_cmp_of_comparable h.symm (comparable_symm hc), decide_eq_true hv]

end Sys2Proof.Machine
end

section
/-! Ripple-borrow subtraction (44_ripple_sub.md): what SUB drives for either result of the comparison, and its
magnitude as a number. -/

namespace Sys2Proof.Machine

/-! ## What SUB answers (R130, R131) -/

/-- The response that carries the difference `M - N`, whatever CMP chose as `M`, `N` and the sign. -/
def differenceResponse (m n : BitSeq) (sign : Bit) : Response where
  r    := val (normSeq (rawDifference m n))
  rLen := (normSeq (rawDifference m n)).length
  sign := sign
  less := false
  sout := finalBorrow m n

/-- All SUB can do on legal operands: `B - A` after LESS, `A - B` after NOT_LESS. -/
theorem exec_sub_cases {s : State} {a b : BitSeq} (h : LegalOperands s.cfg a b) :
    (compareSeqs a b = .less ∧ exec (.sub a b) s = .next (s.withRsp (differenceResponse b a true))) ∨
    (compareSeqs a b = .notLess ∧ exec (.sub a b) s = .next (s.withRsp (differenceResponse a b false))) := by
  rw [exec_sub_of_legal h, subResponse_eq]
  cases compareSeqs a b with
  | less => exact .inl ⟨rfl, rfl⟩
  | notLess => exact .inr ⟨rfl, rfl⟩

/-- What LESS is known to mean, NOT_LESS denies (43_compare.md R124: there is no third result). -/
theorem compareSeqs_eq_notLess_iff {a b : BitSeq} {p : Prop} (hp : compareSeqs a b = .less ↔ p) :
    compareSeqs a b = .notLess ↔ ¬ p := by
  rw [← hp]
  cases compareSeqs a b <;> decide

/-- SUB on legal operands subtracts in the order of whatever proposition the comparison is known to decide. -/
theorem exec_sub_eq_ite {s : State} {a b : BitSeq} {p : Prop} [Decidable p] (h : LegalOperands s.cfg a b)
    (hp : compareSeqs a b = .less ↔ p) :
    exec (.sub a b) s =
      .next (s.withRsp (if p then differenceResponse b a true else differenceResponse a b false)) := by
  rcases exec_sub_cases h with ⟨hc, hsub⟩ | ⟨hc, hsub⟩
  · rw [if_pos (hp.mp hc), hsub]
  · rw [if_neg ((compareSeqs_eq_notLess_iff hp).mp hc), hsub]

theorem compareSeqs_self (a : BitSeq) : compareSeqs a a = .notLess :=
  (compareSeqs_eq_notLess_iff (compareSeqs_of_length_eq rfl)).mpr (Nat.lt_irrefl _)

/-- The raw difference is the row of subtractor cells, the borrow seeded 0 and threaded from position 0 up. -/
theorem rawDifference_is_ripple_borrow (m n : BitSeq) :
    chainState borrowOut m n 0 = false ∧ (rawDifference m n).length = max m.length n.length ∧
    ∀ i, i < max m.length n.length →
      bitAt (rawDifference m n) i = diffBit (bitAt m i) (bitAt n i) (chainState borrowOut m n i) ∧
      chainState borrowOut m n (i + 1) = borrowOut (bitAt m i) (bitAt n i) (chainState borrowOut m n i) :=
  ⟨chainState_zero _ m n, length_rawDifference m n,
    fun i hi => ⟨bitAt_chainBits _ _ m n hi, chainState_succ _ m n i⟩⟩

/-- Settles O22: in either order of the operands the chain is the one of the raw difference. -/
theorem subIsCompareSwapRippleNorm : Obligations.SubIsCompareSwapRippleNorm := by
  refine ⟨fun s a b h => ?_, fun s a b h => ?_, fun s hop => ?_, fun _ _ => rfl⟩
  · have hcmp := exec_cmp_of_legal h
    rcases exec_sub_cases h with ⟨hc, hsub⟩ | ⟨hc, hsub⟩
    · rw [hc] at hcmp
      obtain ⟨hzero, hlen, hcells⟩ := rawDifference_is_ripple_borrow b a
      exact ⟨_, b, a, rawDifference b a, chainState borrowOut b a, hcmp, rfl, hzero, hlen, hcells, hsub⟩
    · rw [hc] at hcmp
      obtain ⟨hzero, hlen, hcells⟩ := rawDifference_is_ripple_borrow a b
      exact ⟨_, a, b, rawDifference a b, chainState borrowOut a b, hcmp, rfl, hzero, hlen, hcells, hsub⟩
  · obtain ⟨why, -, hsub, -⟩ := exists_sequence_refused h
    exact ⟨why, hsub⟩
  · exact stepRunsDecodedRequest s _ (decode_of_op001 hop)

/-- Settles O23: both operations show the one comparison, which is NOT_LESS for a sequence and itself. -/
theorem subSignIsCompare : Obligations.SubSignIsCompare := by
  intro s a b h
  have hcmp := exec_cmp_of_legal h
  rcases exec_sub_cases h with ⟨hc, hsub⟩ | ⟨hc, hsub⟩
  · rw [hc] at hcmp
    refine ⟨_, _, hsub, hcmp, rfl, ?_⟩
    rintro rfl
    rw [compareSeqs_self] at hc
    cases hc
  · rw [hc] at hcmp
    exact ⟨_, _, hsub, hcmp, rfl, fun _ => rfl⟩

/-! ## The final borrow (R132) -/

theorem finalBorrow_of_le {m n : BitSeq} (h : val n ≤ val m) : finalBorrow m n = false :=
  Bool.eq_false_of_not_eq_true (mt (finalBorrow_iff m n).mp (Nat.not_lt.mpr h))

/-- Normalizing the raw difference leaves at most the `W` digits of the chain. -/
theorem length_norm_rawDifference_le (m n : BitSeq) : (normSeq (rawDifference m n)).length ≤ width m n :=
  (length_norm_le _).trans_eq (length_rawDifference m n)

/-- Settles O24: SOUT says whether the minuend is the smaller value, which a comparison of values rules out. -/
theorem subBorrowNotInMagnitude : Obligations.SubBorrowNotInMagnitude := by
  intro s a b h
  refine ⟨length_rawDifference a b, ?_⟩
  rcases exec_sub_cases h with ⟨hc, hsub⟩ | ⟨hc, hsub⟩
  · refine ⟨_, hsub, ?_, nofun, fun _ => finalBorrow_iff b a, fun hcomp => finalBorrow_of_le ?_⟩
    · exact (length_norm_rawDifference_le b a).trans_eq (width_comm b a)
    · exact ((compareSeqs_of_comparable hcomp).mp hc).le
  · refine ⟨_, hsub, length_norm_rawDifference_le a b, fun _ => finalBorrow_iff a b, nofun,
      fun hcomp => finalBorrow_of_le ?_⟩
    exact Nat.not_lt.mp ((compareSeqs_eq_notLess_iff (compareSeqs_of_comparable hcomp)).mp hc)

/-! ## The normalized magnitude (R133) -/

/-- The sequence on the result bus is the normal form of the raw difference. -/
@[simp] theorem resultSeq_differenceResponse (m n : BitSeq) (sign : Bit) :
    (differenceResponse m n sign).resultSeq = normSeq (rawDifference m n) :=
  seqOfBus_val _

theorem normalized_norm_rawDifference {c : Config} {m n : BitSeq} (h : LegalOperands c m n) :
    Normalized (normSeq (rawDifference m n)) :=
  normalized_norm (rawDifference_ne_nil (one_le_width h))

/-- The magnitude on the bus is normalized: at least one digit, and a leading 1 if it has two or more. -/
theorem resultSeq_differenceResponse_normalized {c : Config} {m n : BitSeq} (h : LegalOperands c m n) (sign : Bit) :
    Normalized (differenceResponse m n sign).resultSeq ∧ 1 ≤ (differenceResponse m n sign).rLen ∧
    (2 ≤ (differenceResponse m n sign).rLen → (differenceResponse m n sign).resultSeq.head? = some true) := by
  have hn := normalized_norm_rawDifference h
  rw [resultSeq_differenceResponse]
  exact ⟨hn, List.length_pos_of_ne_nil hn.1, head?_of_normalized hn⟩

/-- Settles O25: the response carries the normal form of the raw difference in the order of the sign. -/
theorem subMagnitudeIsNormalized : Obligations.SubMagnitudeIsNormalized := by
  intro s a b h
  rcases exec_sub_cases h with ⟨-, hsub⟩ | ⟨-, hsub⟩
  · exact ⟨_, hsub, resultSeq_differenceResponse b a true, resultSeq_differenceResponse_normalized h.symm true⟩
  · exact ⟨_, hsub, resultSeq_differenceResponse a b false, resultSeq_differenceResponse_normalized h false⟩

/-! ## The magnitude as a number (R134, R135, R137) -/

/-- The number that `W` difference bits hold: the difference, wrapped around at `2 ^ W` when it is negative. -/
def wrappedDifference (m n : BitSeq) : Nat :=
  if val m < val n then val m + 2 ^ width m n - val n else val m - val n

theorem val_rawDifference_eq_wrapped (m n : BitSeq) : val (rawDifference m n) = wrappedDifference m n := by
  have hchain := val_rawDifference m n
  unfold wrappedDifference
  split
  · rename_i hlt
    rw [(finalBorrow_iff m n).mpr hlt, Bool.toNat_true, Nat.one_mul] at hchain
    omega
  · rename_i hle
    rw [finalBorrow_of_le (Nat.not_lt.mp hle), Bool.toNat_false, Nat.zero_mul] at hchain
    omega

theorem wrappedDifference_of_le {m n : BitSeq} (h : val n ≤ val m) : wrappedDifference m n = val m - val n :=
  if_neg (Nat.not_lt.mpr h)

/-- The response of a difference in terms of the operands' values. -/
theorem differenceResponse_eq {c : Config} {m n : BitSeq} (h : LegalOperands c m n) (sign : Bit) :
    differenceResponse m n sign =
      { r := wrappedDifference m n, rLen := digits (wrappedDifference m n), sign := sign, less := false,
        sout := decide (val m < val n) } := by
  have hsout : finalBorrow m n = decide (val m < val n) := by
    rw [Bool.eq_iff_iff, finalBorrow_iff, decide_eq_true_iff]
  rw [differenceResponse, length_of_normalized (normalized_norm_rawDifference h), val_norm,
    val_rawDifference_eq_wrapped, hsout]

/-- Without a wrap the response is the plain difference, and there is no final borrow. -/
theorem differenceResponse_of_le {c : Config} {m n : BitSeq} (h : LegalOperands c m n) (hle : val n ≤ val m)
    (sign : Bit) :
    differenceResponse m n sign =
      { r := val m - val n, rLen := digits (val m - val n), sign := sign, less := false, sout := false } := by
  rw [differenceResponse_eq h, wrappedDifference_of_le hle, decide_eq_false (Nat.not_lt.mpr hle)]

/-- Settles O26: the comparison is the one of the values, so the smaller one is subtracted from the other. -/
theorem subAnswersSignMagnitude : Obligations.SubAnswersSignMagnitude := by
  intro s a b h hcomp
  rw [exec_sub_eq_ite h (compareSeqs_of_comparable hcomp)]
  by_cases hlt : val a < val b
  · have habs : ((val a : Int) - val b).natAbs = val b - val a := by omega
    rw [if_pos hlt, differenceResponse_of_le h.symm hlt.le, habs, decide_eq_true hlt]
  · have hle : val b ≤ val a := Nat.not_lt.mp hlt
    have habs : ((val a : Int) - val b).natAbs = val a - val b := by omega
    rw [if_neg hlt, differenceResponse_of_le h hle, habs, decide_eq_false hlt]

/-- At `W` the length of the longer operand, the wrap-around is at that length. -/
theorem wrappedDifference_of_length_le {m n : BitSeq} (h : n.length ≤ m.length) :
    wrappedDifference m n = if val m < val n then val m + 2 ^ m.length - val n else val m - val n := by
  rw [wrappedDifference, width, max_eq_left h]

/-- Settles O27: the longer operand is the minuend, and `W` is its length. -/
theorem subWrapsWhenLengthMisjudges : Obligations.SubWrapsWhenLengthMisjudges := by
  refine ⟨fun s a b h hlen => ?_, fun s a b h hlen => ?_⟩
  · rw [exec_sub_eq_ite h (compareSeqs_of_length_ne hlen.ne'), if_neg hlen.not_gt, differenceResponse_eq h,
      wrappedDifference_of_length_le hlen.le]
  · rw [exec_sub_eq_ite h (compareSeqs_of_length_ne hlen.ne), if_pos hlen, differenceResponse_eq h.symm,
      wrappedDifference_of_length_le hlen.le]

/-- Settles O29: equal operands are comparable, and the magnitude of 0 has one digit. -/
theorem subSelfIsZero : Obligations.SubSelfIsZero := by
  intro s a h
  rw [subAnswersSignMagnitude s a a ⟨h, h⟩ (.inr rfl), Int.sub_self, decide_eq_false (Nat.lt_irrefl _)]
  rfl

/-! ## Adding the magnitude back (R136) -/

/-- What ADD answers carries the sum sequence. -/
theorem resultSeq_of_exec_add {s : State} {a b : BitSeq} {p : Response}
    (h : exec (.add a b) s = .next (s.withRsp p)) : p.resultSeq = addSeq a b := by
  obtain ⟨-, hstate⟩ := exec_eq_next_iff.mp h
  obtain rfl : p = responseOf (.add a b) := by simpa using congrArg State.rsp hstate
  exact resultSeq_sequenceResponse _ _

/-- A normalized sequence added to `B` gives the normalized `A` exactly when the values add up. -/
theorem addSeq_eq_iff {a b d : BitSeq} (ha : Normalized a) (hb : Normalized b) (hd : Normalized d) :
    addSeq b d = a ↔ val b + val d = val a := by
  rw [← val_addSeq]
  exact ⟨congrArg val, normalized_eq_of_val_eq (normalized_addSeq hb hd) ha⟩

/-- Without a wrap the magnitude of `M - N`, added to `N`, is worth `M`. -/
theorem val_add_val_norm_rawDifference {m n : BitSeq} (h : val n ≤ val m) :
    val n + val (normSeq (rawDifference m n)) = val m := by
  rw [val_norm, val_rawDifference_eq_wrapped, wrappedDifference_of_le h, Nat.add_sub_cancel' h]

/-- Settles O28: the magnitude is worth what `val B` lacks to `val A`, and normalized sequences are determined by
their values. -/
theorem subThenAddRoundTrips : Obligations.SubThenAddRoundTrips := by
  intro s a b h ha hb hle
  have hsub := exec_sub_eq_ite h (compareSeqs_of_comparable (.inl ⟨ha, hb⟩))
  rw [if_neg (Nat.not_lt.mpr hle)] at hsub
  have hr : Normalized (normSeq (rawDifference a b)) := normalized_norm_rawDifference h
  have hsum := val_add_val_norm_rawDifference hle
  have hadd := exec_add_eq_sequenceResponse ⟨h.2, length_norm_rawDifference h⟩
  rw [← resultSeq_differenceResponse a b false] at hr hsum hadd
  refine ⟨_, _, hsub, hr, hadd, ?_, fun d p hd hp hpa => ?_⟩
  · rw [resultSeq_sequenceResponse, addSeq_eq_iff ha hb hr, hsum]
  · rw [resultSeq_of_exec_add hp, addSeq_eq_iff ha hb hd, ← hsum] at hpa
    exact normalized_eq_of_val_eq hd hr (Nat.add_left_cancel hpa)

end Sys2Proof.Machine
end

section
/-! Refusals (60_exceptions.md): which requests are refused and why, and the run that a refusal ends. -/

namespace Sys2Proof.Machine

/-! ## The reserved operation codes (R144) -/

/-- The operation codes that select no operation (30_encoding.md R53, R63). -/
abbrev IsReservedOp (op : BitVec 3) : Prop := op = 0b011#3 ∨ op = 0b111#3

theorem step_of_reservedOp {s : State} (h : IsReservedOp s.req.op) : step s = .refused .reservedOp := by
  rcases h with h | h
  · rw [step, decode_of_op011 h, exec, execReserved011]
  · rw [step, decode_of_op111 h, exec, execReserved111]

/-- Settles O47: each reserved code decodes to its own constructor, whose meaning is the refusal. -/
theorem reservedCodesRefused : Obligations.ReservedCodesRefused :=
  ⟨fun _ => ⟨rfl, rfl⟩, fun _ => step_of_reservedOp⟩

/-! ## Legal requests (R140) -/

/-- Settles O48: there is no fault to answer, and a legal request is answered with the response of its
instruction. -/
theorem legalRequestsAnswered : Obligations.LegalRequestsAnswered :=
  ⟨fun _ f => (nomatch f), fun _ h => ⟨_, step_of_legal h⟩⟩

/-! ## Which requests are refused (R143, R146) -/

/-- The reasons of the length checks, an empty operand before one above WMAX (R146). -/
theorem checkLengths_eq_some_iff {c : Config} {a b : BitSeq} {why : Refusal} :
    checkLengths c a b = some why ↔
      (why = .emptyOperand ∧ (a.length = 0 ∨ b.length = 0)) ∨
      (why = .lengthOutOfRange ∧ a.length ≠ 0 ∧ b.length ≠ 0 ∧ (c.wmax < a.length ∨ c.wmax < b.length)) := by
  by_cases hempty : a.length = 0 ∨ b.length = 0
  · rw [checkLengths_of_empty c hempty, Option.some_inj]
    grind
  · obtain ⟨ha, hb⟩ := not_or.mp hempty
    by_cases hover : c.wmax < a.length ∨ c.wmax < b.length
    · rw [checkLengths_of_oversize ha hb hover, Option.some_inj]
      grind
    · rw [checkLengths, if_neg hempty, if_neg hover]
      grind

/-- A sequence operation is refused for the reason of the length checks, and for no other. -/
theorem answerSequences_eq_refused_iff {a b : BitSeq} {r : Response} {s : State} {why : Refusal} :
    answerSequences a b r s = .refused why ↔ checkLengths s.cfg a b = some why := by
  cases h : checkLengths s.cfg a b with
  | none => simp [answerSequences, h, drive]
  | some why' => simp [answerSequences, h]

/-- ADD, SUB and CMP are alike up to the response they drive. -/
theorem step_of_sequenceOp {s : State} (h : IsSequenceOp s.req.op) :
    ∃ r, step s = answerSequences s.req.aSeq s.req.bSeq r s := by
  rcases h with h | h | h
  · exact ⟨_, by rw [step, decode_of_op000 h, exec, execAdd]⟩
  · exact ⟨_, by rw [step, decode_of_op001 h, exec, execSub]⟩
  · exact ⟨_, by rw [step, decode_of_op010 h, exec, execCmp]⟩

/-- On the port, the lengths the checks read are the length fields. -/
theorem step_refused_iff_of_sequenceOp {s : State} {why : Refusal} (h : IsSequenceOp s.req.op) :
    step s = .refused why ↔
      (why = .emptyOperand ∧ (s.req.aLen = 0 ∨ s.req.bLen = 0)) ∨
      (why = .lengthOutOfRange ∧ s.req.aLen ≠ 0 ∧ s.req.bLen ≠ 0 ∧
        (s.cfg.wmax < s.req.aLen ∨ s.cfg.wmax < s.req.bLen)) := by
  have ha : s.req.aSeq.length = s.req.aLen := length_seqOfBus _ _
  have hb : s.req.bSeq.length = s.req.bLen := length_seqOfBus _ _
  obtain ⟨r, hr⟩ := step_of_sequenceOp h
  rw [hr, answerSequences_eq_refused_iff, checkLengths_eq_some_iff, ha, hb]

/-- The three classes of operation codes, which exclude each other (30_encoding.md R53). -/
theorem opClass_cases (op : BitVec 3) :
    (IsSequenceOp op ∧ ¬ IsReservedOp op) ∨ (IsCellOp op ∧ ¬ IsSequenceOp op ∧ ¬ IsReservedOp op) ∨
    (IsReservedOp op ∧ ¬ IsSequenceOp op) := by
  revert op
  decide

/-- Settles O46: a sequence operation is refused by its length checks alone, a cell operation is legal, and a reserved
code is always refused. -/
theorem refusedExactlyWhen : Obligations.RefusedExactlyWhen := by
  intro s why
  rcases opClass_cases s.req.op with ⟨hseq, hres⟩ | ⟨hcell, hseq, hres⟩ | ⟨hres, hseq⟩
  · rw [step_refused_iff_of_sequenceOp hseq]
    simp only [hseq, hres, true_and, and_false, false_or]
  · rw [step_of_legal (legal_decode_of_cellOp hcell s.cfg)]
    simp only [hseq, hres, false_and, and_false, or_false, reduceCtorEq]
  · rw [step_of_reservedOp hres]
    simp only [hseq, hres, false_and, and_false, and_true, or_false, Host.Outcome.refused.injEq, eq_comm]

/-! ## Runs that a refusal ends (R143) -/

/-- The Caller observes a reason exactly when the evaluation is refused for it. -/
theorem observed_eq_error_iff {s : State} {why : Refusal} :
    s.observed = .error why ↔ step s = .refused why := by
  cases h : step s with
  | next t => simp [State.observed, h]
  | fault f => cases f
  | refused why' => simp [State.observed, h]

/-- After an answered run, the requests that follow are issued from the state it ends in. -/
theorem issueAll_append_of_next {s t : State} {qs : List Request} (h : s.issueAll qs = .next t)
    (ps : List Request) : s.issueAll (qs ++ ps) = t.issueAll ps := by
  induction qs generalizing s with
  | nil =>
    cases h
    rfl
  | cons q qs ih =>
    obtain ⟨u, hq, hrest⟩ := issueAll_cons_eq_next_iff.mp h
    rw [List.cons_append, issueAll_cons_of_next hq, ih hrest]

/-- Settles O52: an answered run keeps WMAX, so the request is refused after it as it is when issued first, and a
refusal ends the run. -/
theorem refusedRunStaysRefused : Obligations.RefusedRunStaysRefused := by
  intro s t qs rest q why hrun hobs
  have first : s.issue q = .refused why := observed_eq_error_iff.mp hobs
  have after : t.issue q = .refused why := (issue_eq_of_cfg_eq (cfg_of_issueAll_eq_next hrun) q).trans first
  exact ⟨after, (issueAll_append_of_next hrun _).trans (issueAll_cons_of_refused after rest)⟩

end Sys2Proof.Machine
end
